-- ==== Sys2Proof/Word.lean ====
section
/-! DEFINITION. The word types of the block. No value is signed (R10). -/

namespace Sys2Proof

/-- One byte of a seed buffer or of a fill buffer (R14, R69). -/
abbrev Byte := BitVec 8

/-- A StateArray word of the two Rule 30 variants, and the ARG field of a header (R3, R64). -/
abbrev Word32 := BitVec 32

/-- A StateArray word of the two Extended variants (R3). -/
abbrev Word64 := BitVec 64

/-- One transfer on the request or on the response stream: 64 bits (R18, R60). -/
abbrev Beat := BitVec 64

end Sys2Proof
end

