-- ==== Sys2Proof/Config.lean ====
section
/-! DEFINITION. What is fixed when an instance is built: the variant names of R3 and R4, the parameters the spec
leaves OPEN (R8; 92_eei_decisions.md D13, D15, D16, D19, D29), and the free values, which no proof can see. The reference
values of the parameters stand in Machine/Params.lean. -/

namespace Sys2Proof

/-- The four engine variants, exactly (R3). An instance implements one of them for its lifetime (R4). -/
inductive Variant where
  /-- Rule30-packed: 9 words of 32 bits, a 261-cell torus. -/
  | r30p
  /-- Rule30-compact: one word of 32 bits, an open strip. -/
  | r30c
  /-- ExtendedCA-v1: 80 words of 64 bits, five neighbours by rotation. -/
  | eca1
  /-- ExtendedCA-v2: 80 words of 64 bits, five neighbours direct. -/
  | eca2
deriving DecidableEq, Repr

/-- The parameter `SEED_EXPAND` (R8, R127, D19) as plain data: the reference expansion, or some other build's. -/
inductive SeedExpansion where
  /-- The PCG32 stream of R127, the spec's reference value. -/
  | pcg32
  /-- Another deterministic expansion, told apart by a number. What bytes it gives is free: `Config.otherSeedByte`. -/
  | other (id : Nat)
deriving DecidableEq, Repr

/-- The OPEN parameters of an instance (R8). They are fixed when the block is built, and no command reads them back or
writes them. `VARIANT` itself is not here: it is the constructor of the lattice (R4). -/
structure Build where
  /-- `MARKER_P`: the bit of each R30P word that the rolling gather reads (D13). -/
  markerP : Fin 32
  /-- `MARKER_C`: the same for R30C (D13). -/
  markerC : Fin 32
  /-- `ROUND_C`: the number of rounds of one R30C output word (D29). -/
  roundC : Nat
  /-- `X_IDX`: the four word indices the ECA extraction reads, in order (D15). -/
  xIdx : Vector (Fin 80) 4
  /-- `X_MASK`: the bits of each such word that are selected (D16). -/
  xMask : Word64
  /-- `SEED_EXPAND` (D19). -/
  seedExpand : SeedExpansion
deriving DecidableEq, Repr

/-- FREE VALUE (assumption 3). Byte `i` of the first `n` bytes that the expansion numbered `id` makes of `seed`. R127 lets it
be any deterministic function, so nothing is known of it. -/
opaque Config.otherSeedByte (id : Nat) (seed : Word64) (n i : Nat) : Byte

/-- FREE VALUE (assumption 5). Word `k` of the StateArray after the hardware reset numbered `draw`: R162 says it 'may hold
its old value or any other value', so nothing is known of it. -/
opaque Config.wordAfterReset (draw k : Nat) : Word64

end Sys2Proof
end

