-- ==== Sys2Proof/Machine/Params.lean ====
section
/-! DEFINITION. The parameter values of R8 and the constants R9 derives from them. -/

namespace Sys2Proof

/-- The geometry parameter `N` of R3: how many words the StateArray has. -/
def Variant.words : Variant → Nat
  | .r30p => 9
  | .r30c => 1
  | .eca1 => 80
  | .eca2 => 80

/-- The geometry parameter `W` of R3: how many bits a word, and a native output word, has. -/
def Variant.width : Variant → Nat
  | .r30p => 32
  | .r30c => 32
  | .eca1 => 64
  | .eca2 => 64

/-- `SEED_BYTES` of R8: the length of the seed buffer. R30C has a second word, the warm-up count (90_conflicts.md C6). -/
def Variant.seedLen : Variant → Nat
  | .r30p => 36
  | .r30c => 8
  | .eca1 => 640
  | .eca2 => 640

/-- `ceil(a / b)`, as R9, R69 and R71 use it. -/
def ceilDiv (a b : Nat) : Nat := (a + (b - 1)) / b

/-- `P_NATIVE_MASK` of R8 and R23: bits 29..1 of an R30P word. -/
def nativeMask : Word32 := 0x3FFFFFFE

/-- `ROUND_P = ceil(W / N)` of R9. -/
def roundP : Nat := ceilDiv Variant.r30p.width Variant.r30p.words

/-- `ROT` of R8: ECA1 rotates left by 3. -/
def rotAmount : Nat := 3

/-- The reference value of each OPEN parameter (R8). Mark: DESIGN CHOICE of the spec, see assumption 2. -/
def Build.reference : Build where
  markerP := 1
  markerC := 1
  roundC := 29
  xIdx := #v[0, 20, 40, 60]
  xMask := 0x1111111111111111
  seedExpand := .pcg32

end Sys2Proof
end

