-- ==== Sys2Proof/Syntax.lean ====
section
/-! DEFINITION. The commands, one constructor per row of the opcode table (R70), each with the operands that R76 writes
after its mnemonic. A payload is an operand of its command: R62 makes a command one header beat and its payload beats. -/

namespace Sys2Proof

/-- A whole command. Header bits the engine ignores (R65) are not kept. -/
inductive Instr where
  /-- LOAD_STATE (R121). `ws` are the payload's word beats as sent; `L`, the header's ARG, is their number. -/
  | loadState (ws : List Beat)
  /-- READ_STATE (R122). -/
  | readState
  /-- NEXT_U32 (R105). -/
  | nextU32
  /-- NEXT_U64 (R106). -/
  | nextU64
  /-- FILL_BYTES (R107). `nbytes` is the header's ARG. -/
  | fillBytes (nbytes : Word32)
  /-- SEED_U64 (R126). `seed` is the one payload beat. -/
  | seedU64 (seed : Beat)
  /-- SEED_BYTES (R123). `bs` are the bytes `B[0 .. SEED_BYTES-1]` that the payload carries. -/
  | seedBytes (bs : List Byte)
  /-- STEP (R92). `count` is the header's ARG. -/
  | step (count : Word32)
  /-- A header whose opcode is reserved (R73, R142). -/
  | reserved (opc : Byte)
deriving DecidableEq, Repr

end Sys2Proof
end

