-- ==== Sys2Proof/WellFormed.lean ====
section
/-! DEFINITION. Which terms of `Instr` are commands that the request stream can carry. -/

namespace Sys2Proof

/-- The opcodes that R73 reserves: 0x00 and 0x09 to 0xFF. -/
def reservedOpc (opc : Byte) : Bool := opc == 0 || decide (9 ≤ opc.toNat)

/-- The command can be written in the encoding of an engine of variant `v`: the number of words of LOAD_STATE fits ARG (R64),
SEED_BYTES has its fixed number of bytes (R70, R76), and a reserved command's opcode is reserved (R73). -/
def Instr.wellFormed (v : Variant) : Instr → Bool
  | .loadState ws => decide (ws.length < 2 ^ 32)
  | .readState => true
  | .nextU32 => true
  | .nextU64 => true
  | .fillBytes _ => true
  | .seedU64 _ => true
  | .seedBytes bs => bs.length == v.seedLen
  | .step _ => true
  | .reserved opc => reservedOpc opc

end Sys2Proof
end

