-- ==== Sys2Proof/Decode.lean ====
section
/-! DEFINITION. From beats to commands (R63 to R65, R68 to R71, R73 to R75) and back. The decoder is total: a stream that does
not hold a whole command is rejected by name, and every header is one of the nine cases of R75. -/

namespace Sys2Proof

/-- The opcodes of R70. -/
def opcLoadState : Byte := 0x01
def opcReadState : Byte := 0x02
def opcNextU32 : Byte := 0x03
def opcNextU64 : Byte := 0x04
def opcFillBytes : Byte := 0x05
def opcSeedU64 : Byte := 0x06
def opcSeedBytes : Byte := 0x07
def opcStep : Byte := 0x08

/-- The header field `OPC`, bits 7..0 (R63). -/
def headerOpc (h : Beat) : Byte := h.extractLsb' 0 8

/-- The header field `ARG`, bits 63..32, unsigned and read as is (R63, R64). Bits 31..8 are ignored (R65). -/
def headerArg (h : Beat) : Word32 := h.extractLsb' 32 32

/-- A header with RSVD = 0: `(zext_64(ARG) << 32) | zext_64(OPC)` (R63). -/
def makeHeader (opc : Byte) (arg : Word32) : Beat := (arg.setWidth 64 <<< 32) ||| opc.setWidth 64

/-- The bytes that a byte beat carries: byte `j` sits in bits `8j+7..8j` (R69). -/
def beatBytes (b : Beat) : List Byte := (List.range 8).map fun j => b.extractLsb' (8 * j) 8

/-- A beat made of eight bytes, byte `j` in bits `8j+7..8j` (R69). -/
def beatOfBytes (f : Nat → Byte) : Beat :=
  (List.range 8).foldl (fun acc j => acc ||| ((f j).setWidth 64 <<< (8 * j))) 0

/-- The byte beats of a byte sequence: `ceil(n / 8)` of them, positions past the end 0 (R69). -/
def byteBeats (bs : List Byte) : List Beat :=
  (List.range (ceilDiv bs.length 8)).map fun i => beatOfBytes fun j => bs.getD (8 * i + j) 0

/-- `P`, the number of payload beats that follow a header, from the header and the variant alone (R71). -/
def payloadBeats (v : Variant) (h : Beat) : Nat :=
  if headerOpc h = opcLoadState then (headerArg h).toNat
  else if headerOpc h = opcSeedU64 then 1
  else if headerOpc h = opcSeedBytes then ceilDiv v.seedLen 8
  else 0

/-- The nine cases of R75, for a header and its payload. Of a SEED_BYTES payload the first `SEED_BYTES` bytes are kept and the
byte positions past them are ignored (R69, R123). -/
def assemble (v : Variant) (h : Beat) (payload : List Beat) : Instr :=
  if headerOpc h = opcLoadState then .loadState payload
  else if headerOpc h = opcReadState then .readState
  else if headerOpc h = opcNextU32 then .nextU32
  else if headerOpc h = opcNextU64 then .nextU64
  else if headerOpc h = opcFillBytes then .fillBytes (headerArg h)
  else if headerOpc h = opcSeedU64 then .seedU64 (payload.headD 0)
  else if headerOpc h = opcSeedBytes then .seedBytes ((payload.flatMap beatBytes).take v.seedLen)
  else if headerOpc h = opcStep then .step (headerArg h)
  else .reserved (headerOpc h)

/-- Why a stream holds no whole command. Neither case is an error of the engine: it waits for more beats (R155, R166). -/
inductive DecodeError where
  /-- The stream is empty: there is no header. -/
  | noHeader
  /-- The header is there, and `missing` of its payload beats are not. -/
  | payloadIncomplete (missing : Nat)
deriving DecidableEq, Repr

/-- The first command of a stream and the beats after it (R62, R75). -/
def decode (v : Variant) : List Beat → Except DecodeError (Instr × List Beat)
  | [] => .error .noHeader
  | h :: rest =>
    if rest.length < payloadBeats v h then .error (.payloadIncomplete (payloadBeats v h - rest.length))
    else .ok (assemble v h (rest.take (payloadBeats v h)), rest.drop (payloadBeats v h))

/-- The opcode of a command (R70). -/
def Instr.opcode : Instr → Byte
  | .loadState _ => opcLoadState
  | .readState => opcReadState
  | .nextU32 => opcNextU32
  | .nextU64 => opcNextU64
  | .fillBytes _ => opcFillBytes
  | .seedU64 _ => opcSeedU64
  | .seedBytes _ => opcSeedBytes
  | .step _ => opcStep
  | .reserved opc => opc

/-- The ARG that R76's assembler writes: 0 where the opcode does not read it. -/
def Instr.arg : Instr → Word32
  | .loadState ws => BitVec.ofNat 32 ws.length
  | .readState => 0
  | .nextU32 => 0
  | .nextU64 => 0
  | .fillBytes n => n
  | .seedU64 _ => 0
  | .seedBytes _ => 0
  | .step c => c
  | .reserved _ => 0

/-- The payload that R76's assembler emits. -/
def Instr.payload : Instr → List Beat
  | .loadState ws => ws
  | .readState => []
  | .nextU32 => []
  | .nextU64 => []
  | .fillBytes _ => []
  | .seedU64 seed => [seed]
  | .seedBytes bs => byteBeats bs
  | .step _ => []
  | .reserved _ => []

/-- The beats of a command: its header with RSVD = 0, then its payload (R63, R76). -/
def encode (i : Instr) : List Beat := makeHeader i.opcode i.arg :: i.payload

/-- An opcode-table word as beats: its low `nbits` bits from bit 0 of the first beat on, every bit above them 0, as many beats
as the header they hold asks for. -/
def tableBeats (v : Variant) (nbits w : Nat) : List Beat :=
  let low := w % 2 ^ nbits
  (List.range (1 + payloadBeats v (BitVec.ofNat 64 low))).map fun k => BitVec.ofNat 64 (low >>> (64 * k))

/-- What the decoder reads from an opcode-table word, on the variant that `State.reset` has (assumption 1). -/
def decodeTableWord (nbits w : Nat) : Option Instr :=
  match decode .r30p (tableBeats .r30p nbits w) with
  | .ok (i, _) => some i
  | .error _ => none

end Sys2Proof
end

