-- ==== Sys2Proof/Machine/Lattice.lean ====
section
/-! DEFINITION. The StateArray of each variant (R21, R23, R25, R26), as four separate arrays under one tagged union (R4). -/

namespace Sys2Proof

/-- The StateArray `S`, one constructor for each variant (R3, R4, R21). Its length is part of its type: 'no resizing ever
occurs'. Bit roles are those of R23 (R30P), R25 (R30C) and R26 (ECA1, ECA2). -/
inductive Lattice where
  | r30p (s : Vector Word32 9)
  | r30c (s : Vector Word32 1)
  | eca1 (s : Vector Word64 80)
  | eca2 (s : Vector Word64 80)
deriving DecidableEq, Repr

/-- The variant a StateArray belongs to. -/
def Lattice.variant : Lattice → Variant
  | .r30p _ => .r30p
  | .r30c _ => .r30c
  | .eca1 _ => .eca1
  | .eca2 _ => .eca2

/-- The StateArray whose word `k` is `trunc_W (f k)` (R14). -/
def Lattice.tabulate (v : Variant) (f : Nat → Word64) : Lattice :=
  match v with
  | .r30p => .r30p (Vector.ofFn fun k => (f k.val).setWidth 32)
  | .r30c => .r30c (Vector.ofFn fun k => (f k.val).setWidth 32)
  | .eca1 => .eca1 (Vector.ofFn fun k => f k.val)
  | .eca2 => .eca2 (Vector.ofFn fun k => f k.val)

/-- All words in index order, each as a word beat `zext_64(S[k])` (R68). -/
def Lattice.wordBeats : Lattice → List Beat
  | .r30p s => s.toList.map fun w => w.setWidth 64
  | .r30c s => s.toList.map fun w => w.setWidth 64
  | .eca1 s => s.toList
  | .eca2 s => s.toList

/-- `zext_64(S[k])`, and 0 for a `k` that is no index of `S`. -/
def Lattice.word (l : Lattice) (k : Nat) : Word64 := l.wordBeats.getD k 0

end Sys2Proof
end

