-- ==== Sys2Proof/Machine/State.lean ====
section
/-! DEFINITION. The state of one engine instance: the architectural state of R20, the part of a command already taken
(R29), the response not yet transferred, and the host's side of the two streams and of `rst` (R60), which the step reads. -/

namespace Sys2Proof.Machine

/-- Why a step stops with a fault: never. R140: 'The block has no traps, no exception vectors and no handler mode', every error
being a status in a response, and an engine that waits is stuck, 'not a fault' (R166). So nothing raises one: safe. -/
inductive Fault where
deriving DecidableEq, Repr

/-- Why a step is refused. -/
inductive Refusal where
  /-- Raised by `exec` alone, for an instruction that has no meaning yet. Every instruction has one, so nothing raises it: safe. -/
  | notModelled (mnemonic : String)
deriving DecidableEq, Repr

/-- One engine instance and its ports. -/
structure State where
  /-- The OPEN parameters this instance was built with (R8). No step writes them. -/
  build : Build
  /-- The StateArray `S` (R21). Its constructor is `VARIANT` (R4). -/
  lattice : Lattice
  /-- The flag `SEEDED` (R27). -/
  seeded : Bool
  /-- The beats of the command in progress that were taken: its header, then its payload so far (R29). -/
  rx : List Beat
  /-- The response beats the engine still has to transfer, next one first (R36 'response stream', R60 `rsp_data`). -/
  rsp : List Beat
  /-- The model's own: how many free StateArrays were drawn (assumption 5). -/
  freeDraws : Nat
  /-- The input `rst` (R60). The host drives it. -/
  rst : Bool
  /-- The beats the host offers and has not transferred, next one first: `req_valid` and `req_data` (R60). -/
  req : List Beat
  /-- The input `rsp_ready` (R60). The host drives it. -/
  rspReady : Bool
  /-- The model's own: the response beats the host has taken, oldest first (assumption 8). -/
  taken : List Beat
deriving DecidableEq, Repr

/-- The outcome of a step of this machine. -/
abbrev Result := Host.Outcome State Fault Refusal

/-- The variant of the instance (R4). -/
def State.variant (s : State) : Variant := s.lattice.variant

/-- An instance of variant `v` built with `b`, right after reset (R36, R161): not seeded, sequencer idle, response stream empty.
DESIGN CHOICE, unsafe: `S` is all zero (assumption 4), nothing is offered and `rsp_ready` is 1 (assumptions 8, 9). -/
def State.resetOf (v : Variant) (b : Build) : State where
  build := b
  lattice := Lattice.tabulate v fun _ => 0
  seeded := false
  rx := []
  rsp := []
  freeDraws := 0
  rst := false
  req := []
  rspReady := true
  taken := []

/-- The machine right after reset: an R30P instance (DESIGN CHOICE, assumption 1) with the reference parameters (assumption 2). -/
def State.reset : State := State.resetOf .r30p Build.reference

end Sys2Proof.Machine
end

