-- ==== Sys2Proof/Machine/Flags.lean ====
section
/-! DEFINITION. The one flag, `SEEDED` (R27), and the status codes of a response (R66, R67). There are no condition codes
(R22). -/

namespace Sys2Proof.Machine

/-- The status codes of R67. Codes 0x04 to 0xFF are never produced. -/
inductive Status where
  | ok
  | invalidLength
  | illegalCmd
  | notSeeded
deriving DecidableEq, Repr

/-- The field `STATUS` (R67). -/
def Status.code : Status → Byte
  | .ok => 0x00
  | .invalidLength => 0x01
  | .illegalCmd => 0x02
  | .notSeeded => 0x03

/-- The response header of R66: `STATUS` in bits 7..0, `ROPC` in 15..8, `ZERO` in 31..16, `INFO` in 63..32. -/
def responseHeader (st : Status) (ropc : Byte) (info : Word32) : Beat :=
  (info.setWidth 64 <<< 32) ||| (ropc.setWidth 64 <<< 8) ||| st.code.setWidth 64

/-- `SEEDED <- 1`, together with the whole of `S` (R27, R120: nothing of the previous `S` is kept). -/
def State.construct (s : State) (l : Lattice) : State := { s with lattice := l, seeded := true }

end Sys2Proof.Machine
end

