-- ==== Sys2Proof/Machine/Operands.lean ====
section
/-! DEFINITION. The bit and byte primitives of R11 and R14, on which payloads, seeds and outputs are read and written. The
byte beats of R69 stand in Decode.lean, which reads them too. -/

namespace Sys2Proof.Machine

/-- `rotl_W(a, n)` of R11: bit `j` moves to bit `(j + n) mod W`. -/
def rotl {w : Nat} (a : BitVec w) (n : Nat) : BitVec w :=
  if n % w = 0 then a else (a <<< (n % w)) ||| (a >>> (w - n % w))

/-- `rotr_W(a, n) = rotl_W(a, W - (n mod W))` of R11. -/
def rotr {w : Nat} (a : BitVec w) (n : Nat) : BitVec w := rotl a (w - n % w)

/-- `LE_bytes_n(v)` of R14: the `n` low bytes of `v`, least significant first. -/
def leBytes {w : Nat} (n : Nat) (v : BitVec w) : List Byte := (List.range n).map fun j => v.extractLsb' (8 * j) 8

/-- `LE_word_n(b0, ..)` of R14: the sum of `b_i * 256^i`. -/
def leValue : List Byte → Nat
  | [] => 0
  | b :: bs => b.toNat + 256 * leValue bs

/-- `LE_word_n(B[off .. off+n-1])` (R14, R42). -/
def leWordAt (n off : Nat) (bs : List Byte) : Nat := leValue ((bs.drop off).take n)

end Sys2Proof.Machine
end

