-- ==== Sys2Proof/Machine/Ops.lean ====
section
/-! DEFINITION. What the commands share: sending a response, raising an error status (the block's one way to take an
exception, R140), the test of `SEEDED`, and the moves of the two streams and of `rst` (R60 to R62, R160 to R167). -/

namespace Sys2Proof.Machine

/-- Send a response: its header, then its payload beats (R66, R72). -/
def State.respond (s : State) (st : Status) (opc : Byte) (info : Word32) (payload : List Beat) : State :=
  { s with rsp := s.rsp ++ responseHeader st opc info :: payload }

/-- An OK response: `INFO` is the number of payload beats (R66). -/
def State.answer (s : State) (opc : Byte) (payload : List Beat) : Result :=
  .next (s.respond .ok opc (BitVec.ofNat 32 payload.length) payload)

/-- `raise <Status>(info)` of R14: the command ends, the response is one header, no engine state changes (R140, R146). There
is no trap entry, and so no return from one (R148). -/
def State.raise (s : State) (st : Status) (opc : Byte) (info : Word32) : Result :=
  .next (s.respond st opc info [])

/-- Do `k` if `SEEDED` is 1, else raise NOT_SEEDED(0) before any state is read (R143, R145). -/
def State.ifSeeded (s : State) (opc : Byte) (k : Result) : Result :=
  if s.seeded then k else s.raise .notSeeded opc 0

/-- Replace `S` after transitions. `SEEDED` is not written (R27). -/
def State.withLattice (s : State) (l : Lattice) : State := { s with lattice := l }

/-- The reset that `rst` performs (R160, R161): `SEEDED <- 0`, the command in progress is abandoned, response beats not yet
transferred are dropped, no beat is transferred. `S` becomes a free value of the same variant (R162). -/
def State.hardwareReset (s : State) : State :=
  { s with
    seeded := false
    lattice := Lattice.tabulate s.variant (Config.wordAfterReset s.freeDraws)
    rx := []
    rsp := []
    freeDraws := s.freeDraws + 1 }

/-- The response stream at one edge (R61, R167): if the host is ready, the first pending beat is transferred to it. If not,
the engine waits and nothing changes. -/
def State.transferResponse (s : State) : State :=
  match s.rsp with
  | [] => s
  | b :: bs => if s.rspReady then { s with rsp := bs, taken := s.taken ++ [b] } else s

/-- The next command, from the beats already taken and those offered (R62), and the state in which it is performed: its beats
have left the request stream. -/
def State.fetch (s : State) : Except DecodeError (Instr × State) :=
  match decode s.variant (s.rx ++ s.req) with
  | .ok (i, rest) => .ok (i, { s with rx := [], req := rest })
  | .error e => .error e

/-- The command is not whole: the engine takes what is offered and waits for the rest, answering nothing (R155, R166). -/
def State.awaitBeats (s : State) : State := { s with rx := s.rx ++ s.req, req := [] }

/-- `req_ready` (R60, R160, R167): the engine takes no request beat in reset or while a response is pending. -/
def State.reqReady (s : State) : Bool := !s.rst && s.rsp.isEmpty

/-- `rsp_valid` (R60, R160). -/
def State.rspValid (s : State) : Bool := !s.rst && !s.rsp.isEmpty

end Sys2Proof.Machine
end

