-- ==== Sys2Proof/Machine/Transition.lean ====
section
/-! DEFINITION. The parts `rule30_step`, `toroidal_boundary_mux` and `extended_ca_step`: the transitions R80 to R88. Every
word of a result is computed from the old array alone (R15). -/

namespace Sys2Proof.Machine

/-- `rule30w` of R81: `(x >> 1) ^ (x | (x << 1))`. -/
def rule30w (x : Word32) : Word32 := (x >>> 1) ^^^ (x ||| (x <<< 1))

/-- `R30C_STEP` of R82. There is no boundary step. -/
def r30cStep (s : Vector Word32 1) : Vector Word32 1 := Vector.ofFn fun k => rule30w s[k]

/-- `S[i mod 9]`. -/
def at9 (s : Vector Word32 9) (i : Nat) : Word32 := s[i % 9]'(Nat.mod_lt _ (by decide))

/-- Bit `j` of a word, as a word that is 0 or 1. -/
def bitAt {w : Nat} (x : BitVec w) (j : Nat) : BitVec w := (x >>> j) &&& 1

/-- `R30P_ALIGN` of R83: native bits kept; LSTG, bit 30, from bit 1 of word `(k + 1) mod 9`; RSTG, bit 0, from bit 29 of word
`(k - 1) mod 9`, here `(k + 8) mod 9`; RSVD, bit 31, cleared. -/
def r30pAlign (s : Vector Word32 9) : Vector Word32 9 :=
  Vector.ofFn fun k =>
    ((s[k] &&& nativeMask) ||| (bitAt (at9 s (k.val + 1)) 1 <<< 30)) ||| bitAt (at9 s (k.val + 8)) 29

/-- The word step of R85 between its two alignments: new native cells, non-native bits cleared. -/
def r30pCells (a : Vector Word32 9) : Vector Word32 9 := Vector.ofFn fun k => rule30w a[k] &&& nativeMask

/-- `R30P_STEP` of R85: align, step every word, align again. -/
def r30pStep (s : Vector Word32 9) : Vector Word32 9 := r30pAlign (r30pCells (r30pAlign s))

/-- `S[i mod 80]`. -/
def at80 (s : Vector Word64 80) (i : Nat) : Word64 := s[i % 80]'(Nat.mod_lt _ (by decide))

/-- `HALO1` of R84: 82 words, `E[j] = S[(j - 1) mod 80]`. -/
def halo1 (s : Vector Word64 80) : Vector Word64 82 := Vector.ofFn fun j => at80 s (j.val + 79)

/-- `HALO2` of R84: 84 words, `E[j] = S[(j - 2) mod 80]`. -/
def halo2 (s : Vector Word64 80) : Vector Word64 84 := Vector.ofFn fun j => at80 s (j.val + 78)

/-- The cell rule of ECA1 (R87): `((L | rotl_64(L, 3)) ^ C) ^ (R | rotl_64(R, 3))`. -/
def eca1Cell (l c r : Word64) : Word64 := ((l ||| rotl l rotAmount) ^^^ c) ^^^ (r ||| rotl r rotAmount)

/-- `ECA1_STEP` of R87. -/
def eca1Step (s : Vector Word64 80) : Vector Word64 80 :=
  let e := halo1 s
  Vector.ofFn fun i => eca1Cell e[i.val] e[i.val + 1] e[i.val + 2]

/-- The cell rule of ECA2 (R88), in the grouping that 90_conflicts.md C1 keeps: `((l2 | l1) ^ c) ^ (r1 | r2)`. -/
def eca2Cell (l2 l1 c r1 r2 : Word64) : Word64 := ((l2 ||| l1) ^^^ c) ^^^ (r1 ||| r2)

/-- `ECA2_STEP` of R88. -/
def eca2Step (s : Vector Word64 80) : Vector Word64 80 :=
  let e := halo2 s
  Vector.ofFn fun i => eca2Cell e[i.val] e[i.val + 1] e[i.val + 2] e[i.val + 3] e[i.val + 4]

/-- `TRANSITION(S)` of R80: the variant's step. It reads nothing but `S`. -/
def transition : Lattice → Lattice
  | .r30p s => .r30p (r30pStep s)
  | .r30c s => .r30c (r30cStep s)
  | .eca1 s => .eca1 (eca1Step s)
  | .eca2 s => .eca2 (eca2Step s)

/-- `repeat n times: S <- TRANSITION(S)` (R92, R125). -/
def advance : Nat → Lattice → Lattice
  | 0, l => l
  | n + 1, l => advance n (transition l)

end Sys2Proof.Machine
end

