-- ==== Sys2Proof/Machine/Seeding.lean ====
section
/-! DEFINITION. The part `ca_seeder`: R124, R125 and R127. -/

namespace Sys2Proof.Machine

/-- One step of the generator of R127. Constants PRESUMED by the spec (93_implementation_defined.md G3). -/
def pcgNext (st : Word64) : Word64 := st * 6364136223846793005 + 11634580027462260723

/-- The output of R127 for an updated state: `rotr_32(trunc_32(((st >> 18) ^ st) >> 27), st >> 59)`. -/
def pcgOutput (st : Word64) : Word32 := rotr ((((st >>> 18) ^^^ st) >>> 27).setWidth 32) (st >>> 59).toNat

/-- The first `words` outputs of R127, as little-endian bytes. -/
def pcgBytes : Nat → Word64 → List Byte
  | 0, _ => []
  | words + 1, st => leBytes 4 (pcgOutput (pcgNext st)) ++ pcgBytes words (pcgNext st)

/-- `SEED_EXPAND(seed, n)` (R127): for the reference expansion the loop runs until it has `n` bytes, four at a time, and is cut to
`n`. Another build's expansion is free (assumption 3). -/
def seedExpand (e : SeedExpansion) (seed : Word64) (n : Nat) : List Byte :=
  match e with
  | .pcg32 => (pcgBytes (ceilDiv n 4) seed).take n
  | .other id => (List.range n).map (Config.otherSeedByte id seed n)

/-- `INSTALL_SEED(B)` of R124, with the warm-up of R125 on R30C: the second word counts the transitions to discard. -/
def installSeed (v : Variant) (bs : List Byte) : Lattice :=
  match v with
  | .r30p => Lattice.tabulate .r30p fun k => BitVec.ofNat 64 (leWordAt 4 (4 * k) bs)
  | .r30c => advance (leWordAt 4 4 bs) (Lattice.tabulate .r30c fun _ => BitVec.ofNat 64 (leWordAt 4 0 bs))
  | .eca1 => Lattice.tabulate .eca1 fun k => BitVec.ofNat 64 (leWordAt 8 (8 * k) bs)
  | .eca2 => Lattice.tabulate .eca2 fun k => BitVec.ofNat 64 (leWordAt 8 (8 * k) bs)

end Sys2Proof.Machine
end

