-- ==== Sys2Proof/Machine/Construct.lean ====
section
/-! DEFINITION. The commands that construct, snapshot and restore: R121, R122, R123, R126. -/

namespace Sys2Proof.Machine

/-- LOAD_STATE (R121). The payload has been consumed whatever its length. If `L` is not `N`: INVALID_LENGTH(N), no state changed
(R141). Else `S` is installed exactly, each word `trunc_W` of its beat, with no alignment and no warm-up. -/
def execLoadState (ws : List Beat) (s : State) : Result :=
  if ws.length = s.variant.words then
    (s.construct (Lattice.tabulate s.variant fun k => ws.getD k 0)).answer opcLoadState []
  else
    s.raise .invalidLength opcLoadState (BitVec.ofNat 32 s.variant.words)

/-- READ_STATE (R122): every word as stored, hidden bits included (R35). `S` is not changed. -/
def execReadState (s : State) : Result :=
  s.ifSeeded opcReadState (s.answer opcReadState s.lattice.wordBeats)

/-- SEED_BYTES (R123). It cannot fail. -/
def execSeedBytes (bs : List Byte) (s : State) : Result :=
  (s.construct (installSeed s.variant bs)).answer opcSeedBytes []

/-- SEED_U64 (R126). It cannot fail. -/
def execSeedU64 (seed : Beat) (s : State) : Result :=
  (s.construct (installSeed s.variant (seedExpand s.build.seedExpand seed s.variant.seedLen))).answer opcSeedU64 []

end Sys2Proof.Machine
end

