-- ==== Sys2Proof/Machine/Control.lean ====
section
/-! DEFINITION. STEP (R92) and the reserved opcodes (R73, R142). -/

namespace Sys2Proof.Machine

/-- STEP (R92): `COUNT` transitions, no output. -/
def execStep (count : Word32) (s : State) : Result :=
  s.ifSeeded opcStep ((s.withLattice (advance count.toNat s.lattice)).answer opcStep [])

/-- A reserved opcode (R142): ILLEGAL_CMD(0), `ROPC` the offending opcode, no state changed. -/
def execReserved (opc : Byte) (s : State) : Result :=
  s.raise .illegalCmd opc 0

end Sys2Proof.Machine
end

