-- ==== Sys2Proof/Machine/Extraction.lean ====
section
/-! DEFINITION. The part `output_extractor` (R100 to R104) and the fill loop of R107. Every read comes before the transition
that follows it (R100). -/

namespace Sys2Proof.Machine

/-- The reads of one round of R101: for each word in ascending order, `acc <- rotl_32(acc, 1) | S[k][MARKER]`. -/
def gatherRound {n : Nat} (marker : Nat) (s : Vector Word32 n) (acc : Word32) : Word32 :=
  s.toList.foldl (fun acc w => rotl acc 1 ||| bitAt w marker) acc

/-- The rounds of R101: each round's reads precede its transition. -/
def gatherRounds {n : Nat} (next : Vector Word32 n → Vector Word32 n) (marker : Nat) :
    Nat → Word32 → Vector Word32 n → Word32 × Vector Word32 n
  | 0, acc, s => (acc, s)
  | r + 1, acc, s => gatherRounds next marker r (gatherRound marker s acc) (next s)

/-- `R30_NATIVE()` of R101: the accumulator starts at 0. -/
def r30Native {n : Nat} (next : Vector Word32 n → Vector Word32 n) (marker rounds : Nat) (s : Vector Word32 n) :
    Word32 × Vector Word32 n :=
  gatherRounds next marker rounds 0 s

/-- The reads of `ECA1_NATIVE()` (R102): per index, shift, then or. -/
def eca1Gather (b : Build) (s : Vector Word64 80) : Word64 :=
  b.xIdx.toList.foldl (fun acc idx => (acc <<< 1) ||| (s[idx] &&& b.xMask)) 0

/-- The reads of `ECA2_NATIVE()` (R103): per index, or, then shift. -/
def eca2Gather (b : Build) (s : Vector Word64 80) : Word64 :=
  b.xIdx.toList.foldl (fun acc idx => (acc ||| (s[idx] &&& b.xMask)) <<< 1) 0

/-- A native output word: `W` bits (R8 `NATIVE_W`, R104). -/
inductive NativeWord where
  | w32 (v : Word32)
  | w64 (v : Word64)
deriving DecidableEq, Repr

/-- `NATIVE()` of R104: the native word, and `S` after the transitions that followed its reads. -/
def native (b : Build) : Lattice → NativeWord × Lattice
  | .r30p s => ((.w32 (r30Native r30pStep b.markerP.val roundP s).1), .r30p (r30Native r30pStep b.markerP.val roundP s).2)
  | .r30c s => ((.w32 (r30Native r30cStep b.markerC.val b.roundC s).1), .r30c (r30Native r30cStep b.markerC.val b.roundC s).2)
  | .eca1 s => (.w64 (eca1Gather b s), .eca1 (eca1Step s))
  | .eca2 s => (.w64 (eca2Gather b s), .eca2 (eca2Step s))

/-- The 32-bit output made of one native word: the word, or the low half of a 64-bit one (R105, D17). -/
def NativeWord.low32 : NativeWord → Word32
  | .w32 v => v
  | .w64 v => v.setWidth 32

/-- `LE_bytes_(W/8)(v)` of a native word (R107). -/
def NativeWord.bytes : NativeWord → List Byte
  | .w32 v => leBytes 4 v
  | .w64 v => leBytes 8 v

/-- The value of one NEXT_U64 and `S` after it (R106): one native word on the 64-bit engines; two on the 32-bit engines, the
first in the low half. -/
def nextU64Value (b : Build) (l : Lattice) : Word64 × Lattice :=
  match native b l with
  | (.w32 lo, l1) => (lo.setWidth 64 ||| ((native b l1).1.low32.setWidth 64 <<< 32), (native b l1).2)
  | (.w64 v, l1) => (v, l1)

/-- The loop of R107: `while len(buf) < NBYTES`, one native word more. Every pass adds at least one byte, so `NBYTES` passes
are enough fuel. -/
def fillLoop (b : Build) (nbytes : Nat) : Nat → List Byte → Lattice → List Byte × Lattice
  | 0, buf, l => (buf, l)
  | fuel + 1, buf, l =>
    if buf.length < nbytes then fillLoop b nbytes fuel (buf ++ (native b l).1.bytes) (native b l).2
    else (buf, l)

/-- The buffer of R107, cut to `NBYTES` bytes, and `S` after it. -/
def fillBuffer (b : Build) (nbytes : Nat) (l : Lattice) : List Byte × Lattice :=
  let r := fillLoop b nbytes nbytes [] l
  (r.1.take nbytes, r.2)

end Sys2Proof.Machine
end

