-- ==== Sys2Proof/Machine/Output.lean ====
section
/-! DEFINITION. The output commands: R105, R106, R107. -/

namespace Sys2Proof.Machine

/-- NEXT_U32 (R105): one native word; on a 64-bit engine its low half, the upper half discarded. -/
def execNextU32 (s : State) : Result :=
  s.ifSeeded opcNextU32
    ((s.withLattice (native s.build s.lattice).2).answer opcNextU32 [(native s.build s.lattice).1.low32.setWidth 64])

/-- NEXT_U64 (R106). -/
def execNextU64 (s : State) : Result :=
  s.ifSeeded opcNextU64
    ((s.withLattice (nextU64Value s.build s.lattice).2).answer opcNextU64 [(nextU64Value s.build s.lattice).1])

/-- FILL_BYTES (R107): the buffer as byte beats (R69). -/
def execFillBytes (nbytes : Word32) (s : State) : Result :=
  s.ifSeeded opcFillBytes
    ((s.withLattice (fillBuffer s.build nbytes.toNat s.lattice).2).answer opcFillBytes
      (byteBeats (fillBuffer s.build nbytes.toNat s.lattice).1))

end Sys2Proof.Machine
end

