-- ==== Sys2Proof/Machine/Dispatch.lean ====
section
/-! DEFINITION. One arm per command (R70, R75). -/

namespace Sys2Proof.Machine

def exec (i : Instr) (s : State) : Host.Outcome State Fault Refusal :=
  match i with
  | .loadState ws => Sys2Proof.Machine.execLoadState ws s
  | .readState => Sys2Proof.Machine.execReadState s
  | .nextU32 => Sys2Proof.Machine.execNextU32 s
  | .nextU64 => Sys2Proof.Machine.execNextU64 s
  | .fillBytes nbytes => Sys2Proof.Machine.execFillBytes nbytes s
  | .seedU64 seed => Sys2Proof.Machine.execSeedU64 seed s
  | .seedBytes bs => Sys2Proof.Machine.execSeedBytes bs s
  | .step count => Sys2Proof.Machine.execStep count s
  | .reserved opc => Sys2Proof.Machine.execReserved opc s

end Sys2Proof.Machine
end

