-- ==== Sys2Proof/Machine/Step.lean ====
section
/-! DEFINITION. One step of the engine agent (R16, R165). -/

namespace Sys2Proof.Machine

/-- One step. In reset, reset (R160). With a response pending, one response beat or a wait, and no request is taken (R62,
R167). Else the next command is performed as one atomic step, its response pending after it (R165). With no whole command
there, the engine waits (R155, R166). -/
def step (s : State) : Host.Outcome State Fault Refusal :=
  if s.rst then .next s.hardwareReset
  else if !s.rsp.isEmpty then .next s.transferResponse
  else
    match s.fetch with
    | .ok (i, s') => exec i s'
    | .error _ => .next s.awaitBeats

/-- `s` with an opcode-table word offered as the next command: at the head of the request stream, out of reset, with no command
half taken and no response pending, which is what the fetch needs (assumption 14). -/
def State.withFetchWord (s : State) (nbits w : Nat) : State :=
  { s with rst := false, rx := [], rsp := [], req := tableBeats s.variant nbits w ++ s.req }

end Sys2Proof.Machine
end

