-- ==== Sys2Proof/Safety.lean ====
section
/-! DEFINITION. The terms in which statements about the machine are made: the fields of a response header, a well-formed
response, the invariant of a run, what the host does between steps, and the views of the StateArray the spec uses. -/

namespace Sys2Proof.Machine

/-- `STATUS`, bits 7..0 of a response header (R66). -/
def statusField (h : Beat) : Byte := h.extractLsb' 0 8

/-- `ROPC`, bits 15..8 (R66). -/
def ropcField (h : Beat) : Byte := h.extractLsb' 8 8

/-- `ZERO`, bits 31..16 (R66). -/
def zeroField (h : Beat) : BitVec 16 := h.extractLsb' 16 16

/-- `INFO`, bits 63..32 (R66). -/
def infoField (h : Beat) : Word32 := h.extractLsb' 32 32

/-- A whole response (R66, R67, R72): a header with a status the block produces and `ZERO` = 0, then `INFO` payload beats if the
status is OK and none otherwise. -/
def responseOk : List Beat → Bool
  | [] => false
  | h :: payload =>
    decide ((statusField h).toNat ≤ 3) && zeroField h == 0 &&
      (if statusField h = 0 then payload.length == (infoField h).toNat else payload.isEmpty)

/-- The beats taken so far are no whole command (R165: a whole one would have been performed). -/
def State.commandPartial (s : State) : Bool :=
  match decode s.variant s.rx with
  | .ok _ => false
  | .error _ => true

/-- What is pending is the rest of one response: with the beats of it that the host has taken already, the last of `taken`, it is
one whole response (R66, R72). -/
def State.pendingIsRestOfAResponse (s : State) : Prop :=
  s.rsp = [] ∨ ∃ sent, sent <:+ s.taken ∧ responseOk (sent ++ s.rsp) = true

/-- What every run of an instance of variant `v`, built with `b`, keeps: the variant and the parameters (R4, R8); no whole command
is left half taken, and none is taken at all while a response is pending (R62, R165); what is pending is the rest of one
response, whose other beats were the last to be transferred (R66, R72). -/
def State.Inv (v : Variant) (b : Build) (s : State) : Prop :=
  s.variant = v ∧ s.build = b ∧ s.commandPartial = true ∧ (s.rsp = [] ∨ s.rx = []) ∧ s.pendingIsRestOfAResponse

/-- Everything about an instance that performing a command leaves alone: its parameters, the streams' other side, the inputs. Not
in it are `S`, `SEEDED` and the response stream. -/
def State.sameAround (s t : State) : Prop :=
  t.variant = s.variant ∧ t.build = s.build ∧ t.rx = s.rx ∧ t.freeDraws = s.freeDraws ∧ t.rst = s.rst ∧ t.req = s.req ∧
    t.rspReady = s.rspReady ∧ t.taken = s.taken

/-- What the host can do between two steps (R60, R61): offer more request beats, after those already offered; drive `rst`;
drive `rsp_ready`. -/
inductive HostAction where
  | offer (beats : List Beat)
  | setRst (level : Bool)
  | setRspReady (level : Bool)
deriving DecidableEq, Repr

/-- The effect of a host action. -/
def State.hostAct (s : State) : HostAction → State
  | .offer beats => { s with req := s.req ++ beats }
  | .setRst level => { s with rst := level }
  | .setRspReady level => { s with rspReady := level }

/-- The states that an instance reaches from reset, whatever the host does (R16, R163). -/
inductive Reachable (v : Variant) (b : Build) : State → Prop where
  | afterReset : Reachable v b (State.resetOf v b)
  | host {s : State} (a : HostAction) : Reachable v b s → Reachable v b (s.hostAct a)
  | step {s t : State} : Reachable v b s → Machine.step s = .next t → Reachable v b t

/-- The whole pending response has been transferred. -/
def State.drained (s : State) : State := { s with rsp := [], taken := s.taken ++ s.rsp }

/-- The commands of a list performed in order, each with its whole response transferred before the next (R52, R165). -/
def performAll : List Instr → State → Option State
  | [], s => some s
  | i :: is, s =>
    match exec i s with
    | .next t => performAll is t.drained
    | .fault _ => none
    | .refused _ => none

/-- The native cell `c` of the 261-cell ring: `x[29k + (j - 1)] = S[k][j]` (R23, R86). -/
def cell (s : Vector Word32 9) (c : Nat) : Bool := (at9 s (c / 29)).getLsbD (c % 29 + 1)

/-- The bit `b_i` of the gather order of R101: round `i / N`, word `i mod N`. -/
def gatherBit {n : Nat} (next : Vector Word32 n → Vector Word32 n) (marker : Nat) (s : Vector Word32 n) (i : Nat) : Bool :=
  ((next^[i / n] s).toList.getD (i % n) 0).getLsbD marker

/-- `S` after `k` native words (R104). -/
def afterNatives (b : Build) : Nat → Lattice → Lattice
  | 0, l => l
  | k + 1, l => afterNatives b k (native b l).2

/-- Byte `j` of a native word, the lowest first. -/
def NativeWord.byte (j : Nat) : NativeWord → Byte
  | .w32 v => v.extractLsb' (8 * j) 8
  | .w64 v => v.extractLsb' (8 * j) 8

/-- The number of transitions of one native word: `ROUND_P`, `ROUND_C`, or 1 (R101 to R103). -/
def nativeRounds (b : Build) : Variant → Nat
  | .r30p => roundP
  | .r30c => b.roundC
  | .eca1 => 1
  | .eca2 => 1

/-- Does the command read `S`, and so need `SEEDED` = 1 (R27, R143)? -/
def needsSeed : Instr → Bool
  | .loadState _ => false
  | .readState => true
  | .nextU32 => true
  | .nextU64 => true
  | .fillBytes _ => true
  | .seedU64 _ => false
  | .seedBytes _ => false
  | .step _ => true
  | .reserved _ => false

/-- Does the command construct an engine of variant `v` (R120), that is, set `SEEDED`? -/
def constructs (v : Variant) : Instr → Bool
  | .loadState ws => ws.length == v.words
  | .readState => false
  | .nextU32 => false
  | .nextU64 => false
  | .fillBytes _ => false
  | .seedU64 _ => true
  | .seedBytes _ => true
  | .step _ => false
  | .reserved _ => false

end Sys2Proof.Machine
end

