-- ==== Sys2Proof/Certificates/Slice0/Obligations.lean ====
section
/-! DEFINITION. The statements about the machine, each from a rule of the spec or derived from several. -/

open Sys2Proof Sys2Proof.Machine

/-! ### Encoding -/

/-- Decoding the beats of a well-formed command, whatever follows them, gives that command and what follows (R62, R63, R69,
R71, R76), every operand at every value. -/
def Obligations.DecodeInvertsEncode : Prop :=
  ∀ (v : Variant) (i : Instr) (rest : List Beat), i.wellFormed v = true → decode v (encode i ++ rest) = .ok (i, rest)

/-- What the decoder reads is a well-formed command, and it takes as many beats as that command's encoding has, the first
holding its opcode (R62, R71). -/
def Obligations.DecodedCommandIsWellFormedAndFramed : Prop :=
  ∀ (v : Variant) (beats : List Beat) (i : Instr) (rest : List Beat), decode v beats = .ok (i, rest) →
    i.wellFormed v = true ∧
      ∃ h payload, beats = h :: payload ++ rest ∧ payload.length + 1 = (encode i).length ∧ headerOpc h = i.opcode

/-- R75: a header and its payload decode to the one of the nine cases that `OPC = h[7:0]` selects, with `ARG = h[63:32]`. -/
def Obligations.EveryHeaderDecodesToOneOfNineCases : Prop :=
  ∀ (v : Variant) (h : Beat) (ps : List Beat), ps.length = payloadBeats v h →
    (h.extractLsb' 0 8 = 0x01#8 → ps.length = (h.extractLsb' 32 32 : Word32).toNat ∧
      decode v (h :: ps) = .ok (.loadState ps, [])) ∧
    (h.extractLsb' 0 8 = 0x02#8 → decode v (h :: ps) = .ok (.readState, [])) ∧
    (h.extractLsb' 0 8 = 0x03#8 → decode v (h :: ps) = .ok (.nextU32, [])) ∧
    (h.extractLsb' 0 8 = 0x04#8 → decode v (h :: ps) = .ok (.nextU64, [])) ∧
    (h.extractLsb' 0 8 = 0x05#8 → decode v (h :: ps) = .ok (.fillBytes (h.extractLsb' 32 32), [])) ∧
    (h.extractLsb' 0 8 = 0x06#8 → ∃ seed, ps = [seed] ∧ decode v (h :: ps) = .ok (.seedU64 seed, [])) ∧
    (h.extractLsb' 0 8 = 0x07#8 → ∃ bs, decode v (h :: ps) = .ok (.seedBytes bs, []) ∧ bs.length = v.seedLen ∧
      ∀ k, k < v.seedLen → bs.getD k 0 = (ps.getD (k / 8) 0).extractLsb' (8 * (k % 8)) 8) ∧
    (h.extractLsb' 0 8 = 0x08#8 → decode v (h :: ps) = .ok (.step (h.extractLsb' 32 32), [])) ∧
    (h.extractLsb' 0 8 = 0x00#8 ∨ 9 ≤ (h.extractLsb' 0 8).toNat →
      decode v (h :: ps) = .ok (.reserved (h.extractLsb' 0 8), []))

/-- R71: `P` is ARG for LOAD_STATE whatever it is, 1 for SEED_U64, `ceil(SEED_BYTES / 8)` for SEED_BYTES, else 0; with fewer
beats there is no command, with more the rest stay for later headers. -/
def Obligations.PayloadLengthFollowsFromHeader : Prop :=
  ∀ (v : Variant) (h : Beat) (tail : List Beat) (p : Nat),
    p = (if h.extractLsb' 0 8 = 0x01#8 then (h.extractLsb' 32 32 : Word32).toNat
      else if h.extractLsb' 0 8 = 0x06#8 then 1
      else if h.extractLsb' 0 8 = 0x07#8 then
        (match v with | .r30p => 5 | .r30c => 1 | .eca1 => 80 | .eca2 => 80)
      else 0) →
    (tail.length < p → decode v (h :: tail) = .error (.payloadIncomplete (p - tail.length))) ∧
    (p ≤ tail.length → ∃ i, decode v (h :: tail) = .ok (i, tail.drop p))

/-- R65: headers that agree on OPC, and on ARG where the opcode reads it, decode alike, whatever their other bits. -/
def Obligations.IgnoredHeaderBitsChangeNothing : Prop :=
  ∀ (v : Variant) (h h' : Beat) (tail : List Beat), h.extractLsb' 0 8 = (h'.extractLsb' 0 8 : Byte) →
    (h.extractLsb' 0 8 = 0x01#8 ∨ h.extractLsb' 0 8 = 0x05#8 ∨ h.extractLsb' 0 8 = 0x08#8 →
      h.extractLsb' 32 32 = (h'.extractLsb' 32 32 : Word32)) →
    decode v (h :: tail) = decode v (h' :: tail)

/-- R68, R69: the byte positions of an R30P SEED_BYTES payload past byte 35 are ignored, and so are the upper halves of the
word beats of LOAD_STATE on a 32-bit variant. -/
def Obligations.InputPaddingIsIgnored : Prop :=
  (∀ (h b0 b1 b2 b3 x y : Beat) (tail : List Beat), h.extractLsb' 0 8 = 0x07#8 → x.setWidth 32 = y.setWidth 32 →
    decode .r30p (h :: b0 :: b1 :: b2 :: b3 :: x :: tail) = decode .r30p (h :: b0 :: b1 :: b2 :: b3 :: y :: tail)) ∧
  (∀ (s : State) (ws ws' : List Beat), s.variant.width = 32 → ws.length = ws'.length →
    (∀ k, (ws.getD k 0).setWidth 32 = ((ws'.getD k 0).setWidth 32 : Word32)) →
    exec (.loadState ws) s = exec (.loadState ws') s)

/-- R78: the header words of the eight commands, as encoded and as decoded. -/
def Obligations.HeaderWordsOfTheCommands : Prop :=
  encode (.loadState (List.replicate 9 0)) = 0x0000000900000001 :: List.replicate 9 0 ∧
  encode .readState = [0x0000000000000002] ∧
  encode .nextU32 = [0x0000000000000003] ∧
  encode .nextU64 = [0x0000000000000004] ∧
  encode (.fillBytes 13) = [0x0000000D00000005] ∧
  (encode (.seedU64 42)).head? = some 0x0000000000000006 ∧
  (encode (.seedBytes [])).head? = some 0x0000000000000007 ∧
  encode (.step 1) = [0x0000000100000008] ∧
  decode .r30p (0x0000000900000001 :: List.replicate 9 0) = .ok (.loadState (List.replicate 9 0), []) ∧
  decode .r30p [0x0000000D00000005] = .ok (.fillBytes 13, []) ∧
  decode .r30p [0x0000000100000008] = .ok (.step 1, [])

/-! ### Steps, streams and reset -/

/-- A step runs the decoded command. One command is one step: R165 allows it, and the model chooses it (assumption 6). Out
of reset and with no response pending, a whole command on the stream is performed on the state whose request stream is what
follows it (R62, R165). -/
def Obligations.StepPerformsTheDecodedCommand : Prop :=
  ∀ (s : State) (i : Instr) (rest : List Beat), s.rst = false → s.rsp = [] →
    decode s.variant (s.rx ++ s.req) = .ok (i, rest) →
    step s = exec i { s with rx := [], req := rest }

/-- The model's own, beside R140 and R144 (no trap, and every operation total): every command, and every step, answers a next
state, and none a fault or a refusal. That an engine that waits, which R166 and R167 call stuck, answers a next state is the
model's choice (assumption 10), and so is that every command finishes, in one step (assumptions 6 and 11). -/
def Obligations.EveryStepAndCommandHasANextState : Prop :=
  (∀ s : State, ∃ t, step s = .next t) ∧ (∀ (i : Instr) (s : State), ∃ t, exec i s = .next t)

/-- R155, R166: with less than a whole command there, the engine answers nothing and keeps its state; it has taken what was
offered, and if nothing more comes it stays where it is. That it takes all that is offered in one step is the model's choice
(assumption 7), and so is that it waits by stepping to the same state (assumption 10). -/
def Obligations.IncompleteCommandWaits : Prop :=
  ∀ (s : State) (e : DecodeError), s.rst = false → s.rsp = [] → decode s.variant (s.rx ++ s.req) = .error e →
    step s = .next { s with rx := s.rx ++ s.req, req := [] } ∧
    step { s with rx := s.rx ++ s.req, req := [] } = .next { s with rx := s.rx ++ s.req, req := [] }

/-- R62, R167: while a response is pending and the host is not ready, nothing happens; when it is ready, one beat is
transferred and no request beat is taken. One beat a step is the model's choice (assumption 8). -/
def Obligations.PendingResponseHoldsTheEngine : Prop :=
  ∀ (s : State) (b : Beat) (bs : List Beat), s.rst = false → s.rsp = b :: bs →
    (s.rspReady = false → step s = .next s) ∧
    (s.rspReady = true → step s = .next { s with rsp := bs, taken := s.taken ++ [b] })

/-- R52, R61: a pending response of `n` beats is transferred in `n` steps to a ready host, in order, and nothing else
changes. One beat a step is the model's choice (assumption 8). -/
def Obligations.ResponseDrainsInOrder : Prop :=
  ∀ (s : State), s.rst = false → s.rspReady = true →
    Sys2Proof.core.run s.rsp.length s = .next { s with rsp := [], taken := s.taken ++ s.rsp }

/-- R61: a request beat leaves the offer only where `req_ready` is 1; a response beat is transferred only where `rsp_valid`
and `rsp_ready` are 1, one a step, the pending beats otherwise staying as they are offered. -/
def Obligations.BeatsTransferOnlyUnderHandshake : Prop :=
  ∀ (s t : State), step s = .next t →
    (s.reqReady = false → t.req = s.req) ∧
    ((s.rspValid && s.rspReady) = false → t.taken = s.taken) ∧
    (s.rspValid = true → s.rspReady = false → t.rsp = s.rsp) ∧
    (t.taken = s.taken ∨ ∃ b, s.rsp = b :: t.rsp ∧ t.taken = s.taken ++ [b])

/-- R160, R161: reset clears SEEDED, abandons the command in progress, drops the pending response, transfers nothing; the
first beat taken after it is a header. Nothing is said of the words of `S` (R162). -/
def Obligations.ResetAbandonsTheCommandAndUnseeds : Prop :=
  ∀ s : State, s.rst = true → s.reqReady = false ∧ s.rspValid = false ∧
    ∃ t, step s = .next t ∧ t.seeded = false ∧ t.rx = [] ∧ t.rsp = [] ∧ t.req = s.req ∧ t.taken = s.taken ∧
      t.variant = s.variant ∧ t.build = s.build ∧ t.rst = true ∧ t.rspReady = s.rspReady ∧
      ∀ (i : Instr) (rest : List Beat), decode s.variant s.req = .ok (i, rest) →
        step { t with rst := false } = exec i { t with rst := false, req := rest }

/-- R36, R161: right after reset SEEDED is 0, the sequencer is idle and the response stream is empty, on every variant. What
`S` holds there is the model's choice (assumption 4), and nothing is said of it. -/
def Obligations.StateAfterReset : Prop :=
  ∀ (v : Variant) (b : Build), (State.resetOf v b).seeded = false ∧ (State.resetOf v b).rx = [] ∧
    (State.resetOf v b).rsp = [] ∧ (State.resetOf v b).variant = v ∧ (State.resetOf v b).build = b

/-- R155: out of reset, only a performed command changes `S` or SEEDED. -/
def Obligations.OnlyResetOrCommandChangesTheEngine : Prop :=
  ∀ (s t : State), step s = .next t → s.rst = false → (t.lattice ≠ s.lattice ∨ t.seeded ≠ s.seeded) →
    s.rsp = [] ∧ ∃ i rest, decode s.variant (s.rx ++ s.req) = .ok (i, rest) ∧
      exec i { s with rx := [], req := rest } = .next t

/-- R27: what a step leaves in SEEDED: 0 in reset; with a response pending, or with no whole command there, what it was; and
after a command, 1 if it was 1 or the command constructed. -/
def Obligations.SeededIsWrittenByConstructionAndResetAlone : Prop :=
  ∀ (s t : State), step s = .next t →
    (s.rst = true → t.seeded = false) ∧
    (s.rst = false → s.rsp ≠ [] → t.seeded = s.seeded) ∧
    (∀ e, s.rst = false → s.rsp = [] → decode s.variant (s.rx ++ s.req) = .error e → t.seeded = s.seeded) ∧
    (∀ i rest, s.rst = false → s.rsp = [] → decode s.variant (s.rx ++ s.req) = .ok (i, rest) →
      t.seeded = (s.seeded || constructs s.variant i))

/-- The invariant `State.Inv` is kept by every step: variant and parameters fixed (R4, R8), no whole command left half taken
and none taken while a response is pending (R62, R165), and what is pending, after the beats of it that were the last to be
transferred, one whole response (R66, R72). -/
def Obligations.InvariantIsKeptByEveryStep : Prop :=
  ∀ (v : Variant) (b : Build) (s t : State), s.Inv v b → step s = .next t → t.Inv v b

/-- The invariant holds right after reset. -/
def Obligations.InvariantHoldsAfterReset : Prop :=
  ∀ (v : Variant) (b : Build), (State.resetOf v b).Inv v b

/-- The invariant holds in every state a run reaches, whatever the host offers and drives between the steps. -/
def Obligations.InvariantHoldsInEveryReachableState : Prop :=
  ∀ (v : Variant) (b : Build) (s : State), Reachable v b s → s.Inv v b

/-- R52, R165: a stream of whole commands, to a ready host, is performed one at a time, in order, each response transferred
whole before the next command, and ends in the state that performing the commands gives. That the sequence completes rests on
assumption 11: every command finishes, which R170 makes a fairness assumption. One command is one step (assumption 6). -/
def Obligations.StreamOfCommandsIsPerformedInOrder : Prop :=
  ∀ (is : List Instr) (s : State), (∀ i ∈ is, i.wellFormed s.variant = true) → s.rst = false → s.rspReady = true →
    s.rx = [] → s.rsp = [] → s.req = is.flatMap encode →
    ∃ (n : Nat) (t : State), performAll is { s with req := [] } = some t ∧ Sys2Proof.core.run n s = .next t

/-- R36, R162: until a construction writes all of `S`, nothing a host can see depends on it. Two runs from states that
differ in `S` alone, not seeded, differ in `S` alone, and not even in `S` once they are seeded. -/
def Obligations.LatticeBeforeSeedingIsUnobservable : Prop :=
  ∀ (n : Nat) (s t : State) (l : Lattice), s.seeded = false → l.variant = s.variant → Sys2Proof.core.run n s = .next t →
    ∃ l', l'.variant = t.variant ∧ Sys2Proof.core.run n (s.withLattice l) = .next (t.withLattice l') ∧
      (t.seeded = true → l' = t.lattice)

/-! ### Responses and errors -/

/-- R66, R67, R72, R145: every command sends one response: a header with ROPC its opcode, ZERO = 0, the one status that
applies and its INFO, then INFO payload beats if the status is OK and none otherwise. -/
def Obligations.EveryCommandGetsOneResponse : Prop :=
  ∀ (i : Instr) (s t : State), i.wellFormed s.variant = true → exec i s = .next t →
    ∃ (h : Beat) (payload : List Beat), t.rsp = s.rsp ++ h :: payload ∧
      h.extractLsb' 8 8 = i.opcode ∧ h.extractLsb' 16 16 = 0#16 ∧
      (h.extractLsb' 0 8 = if reservedOpc i.opcode then 0x02#8
        else if i.opcode = 0x01#8 ∧ constructs s.variant i = false then 0x01#8
        else if needsSeed i = true ∧ s.seeded = false then 0x03#8 else 0x00#8) ∧
      (h.extractLsb' 0 8 = 0x00#8 → (h.extractLsb' 32 32 : Word32).toNat = payload.length) ∧
      (h.extractLsb' 0 8 = 0x01#8 → (h.extractLsb' 32 32 : Word32).toNat = s.variant.words ∧ payload = []) ∧
      (h.extractLsb' 0 8 = 0x02#8 ∨ h.extractLsb' 0 8 = 0x03#8 → h.extractLsb' 32 32 = 0#32 ∧ payload = [])

/-- R72: a response has INFO payload beats when its status is OK, as many as the table says of each command, and none
otherwise. -/
def Obligations.PayloadCountOfAResponse : Prop :=
  ∀ (i : Instr) (s t : State) (h : Beat) (payload : List Beat), exec i s = .next t → t.rsp = s.rsp ++ h :: payload →
    (h.extractLsb' 0 8 ≠ 0x00#8 → payload = []) ∧
    (h.extractLsb' 0 8 = 0x00#8 → payload.length = (h.extractLsb' 32 32 : Word32).toNat ∧
      payload.length = match i with
        | .loadState _ => 0
        | .readState => s.variant.words
        | .nextU32 => 1
        | .nextU64 => 1
        | .fillBytes n => (n.toNat + 7) / 8
        | .seedU64 _ => 0
        | .seedBytes _ => 0
        | .step _ => 0
        | .reserved _ => 0)

/-- R146: an error changes no state. If the response's status is not OK, everything but the response stream is as before. -/
def Obligations.ErrorChangesNoState : Prop :=
  ∀ (i : Instr) (s t : State) (h : Beat) (payload : List Beat), exec i s = .next t → t.rsp = s.rsp ++ h :: payload →
    h.extractLsb' 0 8 ≠ 0x00#8 → t = { s with rsp := t.rsp }

/-- The frame of every command: it changes `S`, SEEDED and the response stream, and nothing else, and of the response stream
nothing that was there before. -/
def Obligations.CommandsTouchOnlyTheEngineAndItsResponse : Prop :=
  ∀ (i : Instr) (s t : State), exec i s = .next t → s.sameAround t ∧ s.rsp <+: t.rsp

/-- R32: the commands that do not write `S`: READ_STATE, LOAD_STATE of a wrong length, a reserved opcode, FILL_BYTES 0, STEP
0, and every command that needs SEEDED while it is 0. -/
def Obligations.CommandsThatLeaveTheLattice : Prop :=
  ∀ (i : Instr) (s t : State), exec i s = .next t →
    (i = .readState ∨ i = .fillBytes 0 ∨ i = .step 0 ∨ (∃ opc, i = .reserved opc) ∨
      (∃ ws, i = .loadState ws ∧ ws.length ≠ s.variant.words) ∨ (needsSeed i = true ∧ s.seeded = false)) →
    t.lattice = s.lattice ∧ t.seeded = s.seeded

/-- R141: LOAD_STATE with `L` ≠ `N`: its `L` payload beats are consumed, the response is INVALID_LENGTH with INFO = `N`,
nothing else changes; and no other command raises it. -/
def Obligations.WrongLengthLoadIsConsumedAndRejected : Prop :=
  (∀ (s : State) (ws tail : List Beat), s.rst = false → s.rsp = [] → s.rx = [] → ws.length < 2 ^ 32 →
    ws.length ≠ s.variant.words → s.req = ((BitVec.ofNat 64 ws.length <<< 32) ||| 0x01#64) :: ws ++ tail →
    step s = .next { s with req := tail, rsp := [(BitVec.ofNat 64 s.variant.words <<< 32) ||| 0x0101#64] }) ∧
  (∀ (i : Instr) (s t : State) (h : Beat) (payload : List Beat), exec i s = .next t → t.rsp = s.rsp ++ h :: payload →
    h.extractLsb' 0 8 = 0x01#8 → ∃ ws, i = .loadState ws ∧ ws.length ≠ s.variant.words)

/-- R142: a reserved command is answered ILLEGAL_CMD with its opcode in ROPC and INFO 0 and changes nothing else; and a
header with a reserved opcode is such a command: it consumes no payload, and the beats after it stay, the next one to be
decoded as a header. -/
def Obligations.ReservedOpcodeIsAnsweredIllegal : Prop :=
  (∀ (s : State) (opc : Byte),
    exec (.reserved opc) s = .next { s with rsp := s.rsp ++ [(opc.setWidth 64 <<< 8) ||| 0x02#64] }) ∧
  (∀ (s : State) (h : Beat) (tail : List Beat), s.rst = false → s.rsp = [] → s.rx = [] → s.req = h :: tail →
    (h.extractLsb' 0 8 = 0x00#8 ∨ 9 ≤ (h.extractLsb' 0 8).toNat) →
    step s = .next { s with req := tail, rsp := [((h.extractLsb' 0 8 : Byte).setWidth 64 <<< 8) ||| 0x02#64] })

/-- R143: before construction READ_STATE, NEXT_U32, NEXT_U64, FILL_BYTES and STEP, every argument included, are answered
NOT_SEEDED with INFO = 0, and nothing else changes. -/
def Obligations.CommandsBeforeSeedingAreRefused : Prop :=
  ∀ (s : State), s.seeded = false →
    exec .readState s = .next { s with rsp := s.rsp ++ [0x0203#64] } ∧
    exec .nextU32 s = .next { s with rsp := s.rsp ++ [0x0303#64] } ∧
    exec .nextU64 s = .next { s with rsp := s.rsp ++ [0x0403#64] } ∧
    (∀ n, exec (.fillBytes n) s = .next { s with rsp := s.rsp ++ [0x0503#64] }) ∧
    (∀ c, exec (.step c) s = .next { s with rsp := s.rsp ++ [0x0803#64] })

/-! ### Construction, snapshot and restore -/

/-- R121: LOAD_STATE of `N` words installs each word's low `W` bits, sets SEEDED and answers OK; of any other number it
answers INVALID_LENGTH(N) and changes nothing. -/
def Obligations.LoadStateInstallsTheWordsExactly : Prop :=
  ∀ (s : State) (ws : List Beat),
    (ws.length = s.variant.words → ∃ t, exec (.loadState ws) s = .next t ∧ t.seeded = true ∧ s.sameAround t ∧
      t.rsp = s.rsp ++ [0x0100#64] ∧ t.lattice.wordBeats.length = s.variant.words ∧
      ∀ k, k < s.variant.words → (t.lattice.word k).toNat = (ws.getD k 0).toNat % 2 ^ s.variant.width) ∧
    (ws.length ≠ s.variant.words → exec (.loadState ws) s =
      .next { s with rsp := s.rsp ++ [(BitVec.ofNat 64 s.variant.words <<< 32) ||| 0x0101#64] })

/-- R122, R35, R49: READ_STATE of a seeded engine answers `N` beats, beat `k` being word `k` zero-extended, all its bits as
stored, and changes nothing else. -/
def Obligations.ReadStateReturnsEveryWordAsStored : Prop :=
  ∀ (s : State), s.seeded = true → ∃ beats : List Beat,
    exec .readState s =
      .next { s with rsp := s.rsp ++ ((BitVec.ofNat 64 s.variant.words <<< 32) ||| 0x0200#64) :: beats } ∧
    beats.length = s.variant.words ∧
    (∀ (a : Vector Word32 9) (k : Fin 9), s.lattice = .r30p a → beats[k.val]? = some (a[k].setWidth 64)) ∧
    (∀ (a : Vector Word32 1) (k : Fin 1), s.lattice = .r30c a → beats[k.val]? = some (a[k].setWidth 64)) ∧
    (∀ (a : Vector Word64 80) (k : Fin 80), s.lattice = .eca1 a ∨ s.lattice = .eca2 a → beats[k.val]? = some a[k])

/-- R122: loading the beats that READ_STATE returned into any instance of the same variant restores the same `S`. -/
def Obligations.SnapshotThenRestoreGivesTheSameLattice : Prop :=
  ∀ (s t u : State) (h : Beat) (beats : List Beat), s.seeded = true → exec .readState s = .next t →
    t.rsp = s.rsp ++ h :: beats → u.variant = s.variant →
    exec (.loadState beats) u =
      .next { u with lattice := s.lattice, seeded := true, rsp := u.rsp ++ [0x0100#64] }

/-- R42, R124, R125: SEED_BYTES sets SEEDED and answers OK; word `k` is the little-endian value of its bytes, installed as
it is, on R30P, ECA1 and ECA2; on R30C word 0 is bytes 0..3 after as many transitions as bytes 4..7 count. -/
def Obligations.SeedBytesInstallsLittleEndianWords : Prop :=
  ∀ (s : State) (bs : List Byte), bs.length = s.variant.seedLen →
    ∃ t, exec (.seedBytes bs) s = .next t ∧ t.seeded = true ∧ s.sameAround t ∧ t.rsp = s.rsp ++ [0x0700#64] ∧
      (s.variant ≠ .r30c → ∀ k, k < s.variant.words →
        (t.lattice.word k).toNat =
          ∑ j ∈ Finset.range (s.variant.width / 8), (bs.getD (s.variant.width / 8 * k + j) 0).toNat * 256 ^ j) ∧
      (s.variant = .r30c → t.lattice =
        transition^[∑ j ∈ Finset.range 4, (bs.getD (4 + j) 0).toNat * 256 ^ j]
          (.r30c #v[BitVec.ofNat 32 (∑ j ∈ Finset.range 4, (bs.getD j 0).toNat * 256 ^ j)]))

/-- R126: SEED_U64 sets SEEDED, answers OK, and installs what SEED_BYTES installs of the expanded seed. -/
def Obligations.SeedU64IsSeedBytesOfTheExpansion : Prop :=
  ∀ (s : State) (seed : Word64), ∃ l : Lattice, l.variant = s.variant ∧
    exec (.seedU64 seed) s = .next { s with lattice := l, seeded := true, rsp := s.rsp ++ [0x0600#64] } ∧
    exec (.seedBytes (seedExpand s.build.seedExpand seed s.variant.seedLen)) s =
      .next { s with lattice := l, seeded := true, rsp := s.rsp ++ [0x0700#64] } ∧
    (seedExpand s.build.seedExpand seed s.variant.seedLen).length = s.variant.seedLen

/-- R127: the reference expansion, whose constants the spec presumes itself (assumption 17). Byte `k` of `n` is byte `k mod
4` of the output made from the generator's state after `k / 4 + 1` updates. -/
def Obligations.ReferenceSeedExpansionIsThePcgStream : Prop :=
  ∀ (seed : Word64) (n : Nat), (seedExpand .pcg32 seed n).length = n ∧
    ∀ (k : Nat) (st : Word64), k < n →
      st = (fun x : Word64 => x * 6364136223846793005#64 + 11634580027462260723#64)^[k / 4 + 1] seed →
      (seedExpand .pcg32 seed n).getD k 0 =
        (((((st >>> 18) ^^^ st) >>> 27).setWidth 32 : Word32).rotateRight (st >>> 59).toNat).extractLsb' (8 * (k % 4)) 8

/-- R120, R129: what a constructing command leaves sets SEEDED and does not depend on the `S` or the SEEDED before it. -/
def Obligations.ConstructionForgetsThePreviousState : Prop :=
  ∀ (i : Instr) (s t : State) (l : Lattice) (x : Bool), constructs s.variant i = true → l.variant = s.variant →
    exec i s = .next t → t.seeded = true ∧ exec i { s with lattice := l, seeded := x } = .next t

/-! ### Transitions -/

/-- R81, R82: bit `j` of the compact transition is `x[j+1] ^ (x[j] | x[j-1])`, missing neighbours reading 0. -/
def Obligations.CompactTransitionIsRule30WithZeroShiftIn : Prop :=
  ∀ (x : Word32), ∃ y : Word32, transition (.r30c #v[x]) = .r30c #v[y] ∧
    ∀ j, j < 32 → y.getLsbD j = Bool.xor (x.getLsbD (j + 1)) (x.getLsbD j || (decide (0 < j) && x.getLsbD (j - 1)))

/-- R83: alignment keeps the native bits, sets bit 30 from bit 1 of the next word and bit 0 from bit 29 of the one before,
round the ring, and clears bit 31. -/
def Obligations.AlignmentRebuildsTheStagingBits : Prop :=
  ∀ (s : Vector Word32 9) (k : Fin 9) (j : Nat), j < 32 → ((r30pAlign s)[k]).getLsbD j =
    if j = 31 then false
    else if j = 30 then (s[(k.val + 1) % 9]'(Nat.mod_lt _ (by decide))).getLsbD 1
    else if j = 0 then (s[(k.val + 8) % 9]'(Nat.mod_lt _ (by decide))).getLsbD 29
    else s[k].getLsbD j

/-- R24: after every R30P transition the staging bits of every word are its neighbours' edge cells and bit 31 is 0; and the
transition depends on native bits alone. -/
def Obligations.PackedTransitionLeavesConsistentStaging : Prop :=
  (∀ (s : Vector Word32 9) (k : Fin 9),
    ((r30pStep s)[k]).getLsbD 30 = ((r30pStep s)[(k.val + 1) % 9]'(Nat.mod_lt _ (by decide))).getLsbD 1 ∧
    ((r30pStep s)[k]).getLsbD 0 = ((r30pStep s)[(k.val + 8) % 9]'(Nat.mod_lt _ (by decide))).getLsbD 29 ∧
    ((r30pStep s)[k]).getLsbD 31 = false) ∧
  (∀ (s s' : Vector Word32 9), (∀ (k : Fin 9), s[k] &&& 0x3FFFFFFE#32 = s'[k] &&& 0x3FFFFFFE#32) →
    r30pStep s = r30pStep s')

/-- R83, R85: on a state whose staging bits are consistent (R24) the alignment is the identity, so aligning twice is
aligning once. -/
def Obligations.AlignmentIsIdentityOnConsistentStates : Prop :=
  (∀ s : Vector Word32 9, r30pAlign (r30pAlign s) = r30pAlign s) ∧
  ∀ (s : Vector Word32 9),
    (∀ (k : Fin 9), s[k].getLsbD 30 = (s[(k.val + 1) % 9]'(Nat.mod_lt _ (by decide))).getLsbD 1 ∧
      s[k].getLsbD 0 = (s[(k.val + 8) % 9]'(Nat.mod_lt _ (by decide))).getLsbD 29 ∧ s[k].getLsbD 31 = false) →
    r30pAlign s = s

/-- R86: the packed transition is Rule 30 on the 261-cell torus. -/
def Obligations.PackedTransitionIsRule30OnTheTorus : Prop :=
  ∀ (s : Vector Word32 9) (c : Nat), c < 261 →
    cell (r30pStep s) c = Bool.xor (cell s ((c + 1) % 261)) (cell s c || cell s ((c + 260) % 261))

/-- R84, R87: bit `l` of word `i` of the ECA1 transition, each neighbour word ORed with itself rotated left by 3, the words
taken round the 80-word ring. -/
def Obligations.EcaOneTransitionPerLane : Prop :=
  ∀ (s : Vector Word64 80) (i : Fin 80) (l : Nat) (left right : Word64), l < 64 →
    left = s[(i.val + 79) % 80]'(Nat.mod_lt _ (by decide)) → right = s[(i.val + 1) % 80]'(Nat.mod_lt _ (by decide)) →
    ((eca1Step s)[i]).getLsbD l =
      Bool.xor (Bool.xor (left.getLsbD l || left.getLsbD ((l + 61) % 64)) (s[i].getLsbD l))
        (right.getLsbD l || right.getLsbD ((l + 61) % 64))

/-- R84, R88: word `i` of the ECA2 transition, `((l2 | l1) ^ c) ^ (r1 | r2)`, the words taken round the 80-word ring. -/
def Obligations.EcaTwoTransitionPerWord : Prop :=
  ∀ (s : Vector Word64 80) (i : Fin 80), (eca2Step s)[i] =
    (((s[(i.val + 78) % 80]'(Nat.mod_lt _ (by decide))) ||| (s[(i.val + 79) % 80]'(Nat.mod_lt _ (by decide)))) ^^^ s[i]) ^^^
      ((s[(i.val + 1) % 80]'(Nat.mod_lt _ (by decide))) ||| (s[(i.val + 2) % 80]'(Nat.mod_lt _ (by decide))))

/-- R89: each ECA2 lane is independent. After any number of transitions, lane `l` depends on lane `l` alone. -/
def Obligations.EcaTwoLanesNeverInteract : Prop :=
  ∀ (n l : Nat) (a b : Vector Word64 80), (∀ k : Fin 80, a[k].getLsbD l = b[k].getLsbD l) →
    ∀ k : Fin 80, ((eca2Step^[n] a)[k]).getLsbD l = ((eca2Step^[n] b)[k]).getLsbD l

/-- R90: all-equal ECA states and the all-zero state of every variant are fixed points, and an R30P state of equal words
steps to one of equal words. -/
def Obligations.EqualWordsStayEqual : Prop :=
  (∀ x : Word64, eca1Step (Vector.replicate 80 x) = Vector.replicate 80 x) ∧
  (∀ x : Word64, eca2Step (Vector.replicate 80 x) = Vector.replicate 80 x) ∧
  (∀ x : Word32, ∃ y, r30pStep (Vector.replicate 9 x) = Vector.replicate 9 y) ∧
  (∀ v : Variant, transition (Lattice.tabulate v fun _ => 0) = Lattice.tabulate v fun _ => 0)

/-- R92: STEP of a seeded engine performs COUNT transitions and answers OK, and changes nothing else; two STEPs leave `S` as
one STEP of the sum. -/
def Obligations.StepAdvancesByItsCount : Prop :=
  (∀ (s : State) (c : Word32), s.seeded = true →
    exec (.step c) s = .next { s with lattice := transition^[c.toNat] s.lattice, rsp := s.rsp ++ [0x0800#64] }) ∧
  (∀ (s t u w : State) (a b c : Word32), s.seeded = true → c.toNat = a.toNat + b.toNat → exec (.step a) s = .next t →
    exec (.step b) t = .next u → exec (.step c) s = .next w → u.lattice = w.lattice)

/-! ### Outputs -/

/-- R101: the rolling gather, for any array length, transition, marker and number of rounds: bit `i` of the gather order
lands at position `(T - 1 - i) mod 32`, ORed with what is there, and the array has taken one transition a round. -/
def Obligations.RollingGatherClosedForm : Prop :=
  ∀ (n : Nat) (next : Vector Word32 n → Vector Word32 n) (marker rounds : Nat) (s : Vector Word32 n),
    (r30Native next marker rounds s).2 = next^[rounds] s ∧
    ∀ p, p < 32 → ((r30Native next marker rounds s).1.getLsbD p = true ↔
      ∃ i, i < rounds * n ∧ (rounds * n - 1 - i) % 32 = p ∧ gatherBit next marker s i = true)

/-- R101, R105 on R30P: NEXT_U32 takes 4 transitions; bit `p` of its value is gathered bit `35 - p`, ORed for `p` < 4 with
bit `3 - p`. -/
def Obligations.NextU32OnPackedGathers36Bits : Prop :=
  ∀ (s : State) (a : Vector Word32 9), s.seeded = true → s.lattice = .r30p a →
    ∃ v : Word32,
      exec .nextU32 s =
        .next { s with lattice := .r30p (r30pStep^[4] a), rsp := s.rsp ++ [0x100000300#64, v.setWidth 64] } ∧
      (∀ p, 4 ≤ p → p < 32 → v.getLsbD p = gatherBit r30pStep s.build.markerP.val a (35 - p)) ∧
      (∀ p, p < 4 → v.getLsbD p =
        (gatherBit r30pStep s.build.markerP.val a (35 - p) || gatherBit r30pStep s.build.markerP.val a (3 - p)))

/-- R101, R105 on R30C with the reference ROUND_C of 29: NEXT_U32 takes 29 transitions; bit `p` of its value is gathered bit
`28 - p`, and bits 31..29 are 0. -/
def Obligations.NextU32OnCompactGathers29Bits : Prop :=
  ∀ (s : State) (a : Vector Word32 1), s.seeded = true → s.lattice = .r30c a → s.build.roundC = 29 →
    ∃ v : Word32,
      exec .nextU32 s =
        .next { s with lattice := .r30c (r30cStep^[29] a), rsp := s.rsp ++ [0x100000300#64, v.setWidth 64] } ∧
      (∀ p, p < 29 → v.getLsbD p = gatherBit r30cStep s.build.markerC.val a (28 - p)) ∧
      (∀ p, 29 ≤ p → v.getLsbD p = false)

/-- R102, R105, R106 on ECA1: NEXT_U64 returns `(m0 << 3) | (m1 << 2) | (m2 << 1) | m3` of the masked words before the
transition, NEXT_U32 its low half, and each takes one transition. -/
def Obligations.OutputsOnEcaOneShiftThenOr : Prop :=
  ∀ (s : State) (a : Vector Word64 80) (m : Fin 4 → Word64) (acc : Word64), s.seeded = true → s.lattice = .eca1 a →
    (∀ q, m q = a[s.build.xIdx[q]] &&& s.build.xMask) →
    acc = (m 0 <<< 3) ||| (m 1 <<< 2) ||| (m 2 <<< 1) ||| m 3 →
    exec .nextU64 s = .next { s with lattice := .eca1 (eca1Step a), rsp := s.rsp ++ [0x100000400#64, acc] } ∧
    exec .nextU32 s = .next { s with lattice := .eca1 (eca1Step a), rsp := s.rsp ++ [0x100000300#64, acc &&& 0xFFFFFFFF#64] }

/-- R103, R105, R106 on ECA2: NEXT_U64 returns `(m0 << 4) | (m1 << 3) | (m2 << 2) | (m3 << 1)`, NEXT_U32 its low half, and
each takes one transition. -/
def Obligations.OutputsOnEcaTwoOrThenShift : Prop :=
  ∀ (s : State) (a : Vector Word64 80) (m : Fin 4 → Word64) (acc : Word64), s.seeded = true → s.lattice = .eca2 a →
    (∀ q, m q = a[s.build.xIdx[q]] &&& s.build.xMask) →
    acc = (m 0 <<< 4) ||| (m 1 <<< 3) ||| (m 2 <<< 2) ||| (m 3 <<< 1) →
    exec .nextU64 s = .next { s with lattice := .eca2 (eca2Step a), rsp := s.rsp ++ [0x100000400#64, acc] } ∧
    exec .nextU32 s = .next { s with lattice := .eca2 (eca2Step a), rsp := s.rsp ++ [0x100000300#64, acc &&& 0xFFFFFFFF#64] }

/-- R44: on R30P and R30C a 64-bit output is `lo | (hi << 32)` of two consecutive NEXT_U32, which leave the same `S`. -/
def Obligations.NextU64IsTwoNextU32LowWordFirst : Prop :=
  ∀ (s : State), s.seeded = true → s.variant = .r30p ∨ s.variant = .r30c →
    ∃ (t u : State) (lo hi : Word32),
      exec .nextU32 s = .next t ∧ t.rsp = s.rsp ++ [0x100000300#64, lo.setWidth 64] ∧
      exec .nextU32 t = .next u ∧ u.rsp = t.rsp ++ [0x100000300#64, hi.setWidth 64] ∧
      exec .nextU64 s =
        .next { s with lattice := u.lattice, rsp := s.rsp ++ [0x100000400#64, lo.setWidth 64 ||| (hi.setWidth 64 <<< 32)] }

/-- R43: FILL_BYTES fills its buffer from successive native words, each as its `W/8` little-endian bytes, the last word cut;
`ceil(NBYTES / (W/8))` native words are taken (R107), and the bytes travel eight a beat, the positions past the end 0 (R69). -/
def Obligations.FillBytesStreamsNativeWords : Prop :=
  ∀ (s : State) (n : Word32) (wb : Nat), s.seeded = true → wb = s.variant.width / 8 →
    ∃ beats : List Beat,
      exec (.fillBytes n) s = .next { s with
        lattice := afterNatives s.build ((n.toNat + (wb - 1)) / wb) s.lattice
        rsp := s.rsp ++ ((BitVec.ofNat 64 beats.length <<< 32) ||| 0x0500#64) :: beats } ∧
      beats.length = (n.toNat + 7) / 8 ∧
      ∀ k, k < 8 * beats.length → (beats.getD (k / 8) 0).extractLsb' (8 * (k % 8)) 8 =
        if k < n.toNat then (native s.build (afterNatives s.build (k / wb) s.lattice)).1.byte (k % wb) else 0#8

/-- R45: FILL_BYTES 8 returns the beat that NEXT_U64 returns of the same state, and leaves the same `S`, on every variant.
-/
def Obligations.FillOfEightBytesIsOneNextU64 : Prop :=
  ∀ (s : State), s.seeded = true → ∃ (l : Lattice) (v : Beat),
    exec .nextU64 s = .next { s with lattice := l, rsp := s.rsp ++ [0x100000400#64, v] } ∧
    exec (.fillBytes 8) s = .next { s with lattice := l, rsp := s.rsp ++ [0x100000500#64, v] }

/-- Derived from R107: a fill of a whole number of native words, then another fill, gives the bytes, and leaves the `S`, of
one fill of both lengths. -/
def Obligations.FillsComposeAtWordBoundaries : Prop :=
  ∀ (b : Build) (l : Lattice) (m c : Nat),
    fillBuffer b (m * (l.variant.width / 8) + c) l =
      ((fillBuffer b (m * (l.variant.width / 8)) l).1 ++
          (fillBuffer b c (fillBuffer b (m * (l.variant.width / 8)) l).2).1,
        (fillBuffer b c (fillBuffer b (m * (l.variant.width / 8)) l).2).2)

/-- R109: the number of transitions that each output command takes on each variant, with the reference ROUND_C of 29. -/
def Obligations.TransitionsTakenByOutputCommands : Prop :=
  ∀ (s : State), s.seeded = true → s.build.roundC = 29 →
    (∃ t, exec .nextU32 s = .next t ∧ t.lattice =
      transition^[match s.variant with | .r30p => 4 | .r30c => 29 | .eca1 => 1 | .eca2 => 1] s.lattice) ∧
    (∃ t, exec .nextU64 s = .next t ∧ t.lattice =
      transition^[match s.variant with | .r30p => 8 | .r30c => 58 | .eca1 => 1 | .eca2 => 1] s.lattice) ∧
    (∀ n : Word32, ∃ t, exec (.fillBytes n) s = .next t ∧ t.lattice =
      transition^[match s.variant with
        | .r30p => 4 * ((n.toNat + 3) / 4)
        | .r30c => 29 * ((n.toNat + 3) / 4)
        | .eca1 => (n.toNat + 7) / 8
        | .eca2 => (n.toNat + 7) / 8] s.lattice)

/-- R103, R106, R108: bit 0 of every ECA2 output is 0; on R30C, with the reference ROUND_C of 29, bits 31..29 of NEXT_U32
and bits 63..61 and 31..29 of NEXT_U64 are 0. -/
def Obligations.OutputBitsThatAreAlwaysZero : Prop :=
  ∀ (s : State), s.seeded = true → ∃ (t u : State) (v w : Beat),
    exec .nextU32 s = .next t ∧ t.rsp = s.rsp ++ [0x100000300#64, v] ∧
    exec .nextU64 s = .next u ∧ u.rsp = s.rsp ++ [0x100000400#64, w] ∧
    (s.variant = .eca2 → v.getLsbD 0 = false ∧ w.getLsbD 0 = false) ∧
    (s.variant = .r30c → s.build.roundC = 29 →
      (∀ p, 29 ≤ p → p < 32 → v.getLsbD p = false ∧ w.getLsbD p = false ∧ w.getLsbD (p + 32) = false))

/-- R108: on every variant, with any parameters, the all-zero `S` gives output 0 and stays all zero. -/
def Obligations.ZeroLatticeOutputsZeroForever : Prop :=
  ∀ (s : State), s.seeded = true → s.lattice = Lattice.tabulate s.variant (fun _ => 0) →
    exec .nextU32 s = .next { s with rsp := s.rsp ++ [0x100000300#64, 0] } ∧
    exec .nextU64 s = .next { s with rsp := s.rsp ++ [0x100000400#64, 0] } ∧
    ∀ n : Word32, ∃ beats : List Beat, (∀ b ∈ beats, b = 0) ∧
      exec (.fillBytes n) s =
        .next { s with rsp := s.rsp ++ ((BitVec.ofNat 64 beats.length <<< 32) ||| 0x0500#64) :: beats }

/-- R108: with the reference MARKER_C and ROUND_C, once R30C is on the 2-cycle it stays on it and every NEXT_U32 returns
`0x1FFF_FFFF`. -/
def Obligations.CompactAttractorOutputsAllOnes : Prop :=
  ∀ (s : State) (x : Word32), s.seeded = true → s.build.markerC = 1 → s.build.roundC = 29 → s.lattice = .r30c #v[x] →
    x = 0xAAAAAAAA#32 ∨ x = 0xAAAAAAAB#32 →
    ∃ y : Word32, (y = 0xAAAAAAAA#32 ∨ y = 0xAAAAAAAB#32) ∧
      exec .nextU32 s = .next { s with lattice := .r30c #v[y], rsp := s.rsp ++ [0x100000300#64, 0x1FFFFFFF#64] }
end

