-- ==== Sys2Proof/Laws/Lattice.lean ====
section
/-! SUPPORT. The StateArray: what `tabulate`, `wordBeats`, `word` and the transitions keep and give. -/

namespace Sys2Proof

@[simp] theorem Lattice.tabulate_variant (v : Variant) (f : Nat → Word64) : (Lattice.tabulate v f).variant = v := by
  cases v <;> rfl

/-- R21: the number of words never changes. -/
@[simp] theorem Lattice.wordBeats_length (l : Lattice) : l.wordBeats.length = l.variant.words := by
  cases l <;> simp [Lattice.wordBeats, Lattice.variant, Variant.words]

/-- The value of a word that was tabulated: `trunc_W`. -/
theorem Lattice.word_tabulate_toNat (v : Variant) (f : Nat → Word64) (k : Nat) (hk : k < v.words) :
    ((Lattice.tabulate v f).word k).toNat = (f k).toNat % 2 ^ v.width := by
  cases v with
  | r30p =>
    simp only [Variant.words, Variant.width] at hk ⊢
    simp [Lattice.tabulate, Lattice.word, Lattice.wordBeats, List.getD_eq_getElem?_getD, hk]
    omega
  | r30c =>
    obtain rfl : k = 0 := by simpa [Variant.words] using hk
    simp [Lattice.tabulate, Lattice.word, Lattice.wordBeats, Variant.width]
    omega
  | eca1 =>
    simp only [Variant.words, Variant.width] at hk ⊢
    simp [Lattice.tabulate, Lattice.word, Lattice.wordBeats, List.getD_eq_getElem?_getD, hk]
    omega
  | eca2 =>
    simp only [Variant.words, Variant.width] at hk ⊢
    simp [Lattice.tabulate, Lattice.word, Lattice.wordBeats, List.getD_eq_getElem?_getD, hk]
    omega

/-- A StateArray is determined by its variant and its words. -/
theorem Lattice.tabulate_word (l : Lattice) : Lattice.tabulate l.variant (fun k => l.wordBeats.getD k 0) = l := by
  cases l with
  | r30p s => simp [Lattice.tabulate, Lattice.variant, Lattice.wordBeats, List.getD_eq_getElem?_getD]
  | r30c s =>
    simp only [Lattice.tabulate, Lattice.variant, Lattice.wordBeats, Lattice.r30c.injEq]
    ext k hk
    obtain rfl : k = 0 := by omega
    simp
  | eca1 s => simp [Lattice.tabulate, Lattice.variant, Lattice.wordBeats, List.getD_eq_getElem?_getD]
  | eca2 s => simp [Lattice.tabulate, Lattice.variant, Lattice.wordBeats, List.getD_eq_getElem?_getD]

end Sys2Proof

namespace Sys2Proof.Machine

@[simp] theorem transition_variant (l : Lattice) : (transition l).variant = l.variant := by
  cases l <;> simp only [transition, Lattice.variant]

/-- The loop of R92 and R125 as an iteration. -/
theorem advance_eq_iterate (n : Nat) (l : Lattice) : advance n l = transition^[n] l := by
  induction n generalizing l with
  | zero => rfl
  | succ n ih => rw [advance, ih, Function.iterate_succ_apply]

@[simp] theorem advance_variant (n : Nat) (l : Lattice) : (advance n l).variant = l.variant := by
  induction n generalizing l with
  | zero => rfl
  | succ n ih => rw [advance, ih, transition_variant]

@[simp] theorem installSeed_variant (v : Variant) (bs : List Byte) : (installSeed v bs).variant = v := by
  cases v <;> simp [installSeed]

@[simp] theorem native_variant (b : Build) (l : Lattice) : (native b l).2.variant = l.variant := by
  cases l <;> simp only [native, Lattice.variant]

@[simp] theorem afterNatives_variant (b : Build) (k : Nat) (l : Lattice) : (afterNatives b k l).variant = l.variant := by
  induction k generalizing l with
  | zero => rfl
  | succ k ih => rw [afterNatives, ih, native_variant]

@[simp] theorem nextU64Value_variant (b : Build) (l : Lattice) : (nextU64Value b l).2.variant = l.variant := by
  cases l <;> simp only [nextU64Value, native, Lattice.variant]

@[simp] theorem fillLoop_variant (b : Build) (nbytes fuel : Nat) (buf : List Byte) (l : Lattice) :
    (fillLoop b nbytes fuel buf l).2.variant = l.variant := by
  induction fuel generalizing buf l with
  | zero => rfl
  | succ fuel ih =>
    simp only [fillLoop]
    split
    · rw [ih, native_variant]
    · rfl

@[simp] theorem fillBuffer_variant (b : Build) (nbytes : Nat) (l : Lattice) :
    (fillBuffer b nbytes l).2.variant = l.variant := by
  simp [fillBuffer]

end Sys2Proof.Machine
end

