-- ==== Sys2Proof/Laws/State.lean ====
section
/-! SUPPORT. What each update of the state does to each field. No later proof unfolds a record update. -/

namespace Sys2Proof.Machine

@[simp] theorem State.respond_build (s : State) (st : Status) (opc : Byte) (info : Word32) (payload : List Beat) :
    (s.respond st opc info payload).build = s.build := rfl
@[simp] theorem State.respond_lattice (s : State) (st : Status) (opc : Byte) (info : Word32) (payload : List Beat) :
    (s.respond st opc info payload).lattice = s.lattice := rfl
@[simp] theorem State.respond_seeded (s : State) (st : Status) (opc : Byte) (info : Word32) (payload : List Beat) :
    (s.respond st opc info payload).seeded = s.seeded := rfl
@[simp] theorem State.respond_rx (s : State) (st : Status) (opc : Byte) (info : Word32) (payload : List Beat) :
    (s.respond st opc info payload).rx = s.rx := rfl
@[simp] theorem State.respond_rsp (s : State) (st : Status) (opc : Byte) (info : Word32) (payload : List Beat) :
    (s.respond st opc info payload).rsp = s.rsp ++ responseHeader st opc info :: payload := rfl
@[simp] theorem State.respond_freeDraws (s : State) (st : Status) (opc : Byte) (info : Word32) (payload : List Beat) :
    (s.respond st opc info payload).freeDraws = s.freeDraws := rfl
@[simp] theorem State.respond_rst (s : State) (st : Status) (opc : Byte) (info : Word32) (payload : List Beat) :
    (s.respond st opc info payload).rst = s.rst := rfl
@[simp] theorem State.respond_req (s : State) (st : Status) (opc : Byte) (info : Word32) (payload : List Beat) :
    (s.respond st opc info payload).req = s.req := rfl
@[simp] theorem State.respond_rspReady (s : State) (st : Status) (opc : Byte) (info : Word32) (payload : List Beat) :
    (s.respond st opc info payload).rspReady = s.rspReady := rfl
@[simp] theorem State.respond_taken (s : State) (st : Status) (opc : Byte) (info : Word32) (payload : List Beat) :
    (s.respond st opc info payload).taken = s.taken := rfl
@[simp] theorem State.respond_variant (s : State) (st : Status) (opc : Byte) (info : Word32) (payload : List Beat) :
    (s.respond st opc info payload).variant = s.variant := rfl

@[simp] theorem State.construct_build (s : State) (l : Lattice) :
    (s.construct l).build = s.build := rfl
@[simp] theorem State.construct_lattice (s : State) (l : Lattice) :
    (s.construct l).lattice = l := rfl
@[simp] theorem State.construct_seeded (s : State) (l : Lattice) :
    (s.construct l).seeded = true := rfl
@[simp] theorem State.construct_rx (s : State) (l : Lattice) :
    (s.construct l).rx = s.rx := rfl
@[simp] theorem State.construct_rsp (s : State) (l : Lattice) :
    (s.construct l).rsp = s.rsp := rfl
@[simp] theorem State.construct_freeDraws (s : State) (l : Lattice) :
    (s.construct l).freeDraws = s.freeDraws := rfl
@[simp] theorem State.construct_rst (s : State) (l : Lattice) :
    (s.construct l).rst = s.rst := rfl
@[simp] theorem State.construct_req (s : State) (l : Lattice) :
    (s.construct l).req = s.req := rfl
@[simp] theorem State.construct_rspReady (s : State) (l : Lattice) :
    (s.construct l).rspReady = s.rspReady := rfl
@[simp] theorem State.construct_taken (s : State) (l : Lattice) :
    (s.construct l).taken = s.taken := rfl
@[simp] theorem State.construct_variant (s : State) (l : Lattice) :
    (s.construct l).variant = l.variant := rfl

@[simp] theorem State.withLattice_build (s : State) (l : Lattice) :
    (s.withLattice l).build = s.build := rfl
@[simp] theorem State.withLattice_lattice (s : State) (l : Lattice) :
    (s.withLattice l).lattice = l := rfl
@[simp] theorem State.withLattice_seeded (s : State) (l : Lattice) :
    (s.withLattice l).seeded = s.seeded := rfl
@[simp] theorem State.withLattice_rx (s : State) (l : Lattice) :
    (s.withLattice l).rx = s.rx := rfl
@[simp] theorem State.withLattice_rsp (s : State) (l : Lattice) :
    (s.withLattice l).rsp = s.rsp := rfl
@[simp] theorem State.withLattice_freeDraws (s : State) (l : Lattice) :
    (s.withLattice l).freeDraws = s.freeDraws := rfl
@[simp] theorem State.withLattice_rst (s : State) (l : Lattice) :
    (s.withLattice l).rst = s.rst := rfl
@[simp] theorem State.withLattice_req (s : State) (l : Lattice) :
    (s.withLattice l).req = s.req := rfl
@[simp] theorem State.withLattice_rspReady (s : State) (l : Lattice) :
    (s.withLattice l).rspReady = s.rspReady := rfl
@[simp] theorem State.withLattice_taken (s : State) (l : Lattice) :
    (s.withLattice l).taken = s.taken := rfl
@[simp] theorem State.withLattice_variant (s : State) (l : Lattice) :
    (s.withLattice l).variant = l.variant := rfl

@[simp] theorem State.hardwareReset_build (s : State) :
    (s.hardwareReset).build = s.build := rfl
@[simp] theorem State.hardwareReset_lattice (s : State) :
    (s.hardwareReset).lattice = Lattice.tabulate s.variant (Config.wordAfterReset s.freeDraws) := rfl
@[simp] theorem State.hardwareReset_seeded (s : State) :
    (s.hardwareReset).seeded = false := rfl
@[simp] theorem State.hardwareReset_rx (s : State) :
    (s.hardwareReset).rx = [] := rfl
@[simp] theorem State.hardwareReset_rsp (s : State) :
    (s.hardwareReset).rsp = [] := rfl
@[simp] theorem State.hardwareReset_freeDraws (s : State) :
    (s.hardwareReset).freeDraws = s.freeDraws + 1 := rfl
@[simp] theorem State.hardwareReset_rst (s : State) :
    (s.hardwareReset).rst = s.rst := rfl
@[simp] theorem State.hardwareReset_req (s : State) :
    (s.hardwareReset).req = s.req := rfl
@[simp] theorem State.hardwareReset_rspReady (s : State) :
    (s.hardwareReset).rspReady = s.rspReady := rfl
@[simp] theorem State.hardwareReset_taken (s : State) :
    (s.hardwareReset).taken = s.taken := rfl
@[simp] theorem State.hardwareReset_variant (s : State) :
    (s.hardwareReset).variant = s.variant := Lattice.tabulate_variant _ _

@[simp] theorem State.awaitBeats_build (s : State) :
    (s.awaitBeats).build = s.build := rfl
@[simp] theorem State.awaitBeats_lattice (s : State) :
    (s.awaitBeats).lattice = s.lattice := rfl
@[simp] theorem State.awaitBeats_seeded (s : State) :
    (s.awaitBeats).seeded = s.seeded := rfl
@[simp] theorem State.awaitBeats_rx (s : State) :
    (s.awaitBeats).rx = s.rx ++ s.req := rfl
@[simp] theorem State.awaitBeats_rsp (s : State) :
    (s.awaitBeats).rsp = s.rsp := rfl
@[simp] theorem State.awaitBeats_freeDraws (s : State) :
    (s.awaitBeats).freeDraws = s.freeDraws := rfl
@[simp] theorem State.awaitBeats_rst (s : State) :
    (s.awaitBeats).rst = s.rst := rfl
@[simp] theorem State.awaitBeats_req (s : State) :
    (s.awaitBeats).req = [] := rfl
@[simp] theorem State.awaitBeats_rspReady (s : State) :
    (s.awaitBeats).rspReady = s.rspReady := rfl
@[simp] theorem State.awaitBeats_taken (s : State) :
    (s.awaitBeats).taken = s.taken := rfl
@[simp] theorem State.awaitBeats_variant (s : State) :
    (s.awaitBeats).variant = s.variant := rfl

@[simp] theorem State.drained_build (s : State) :
    (s.drained).build = s.build := rfl
@[simp] theorem State.drained_lattice (s : State) :
    (s.drained).lattice = s.lattice := rfl
@[simp] theorem State.drained_seeded (s : State) :
    (s.drained).seeded = s.seeded := rfl
@[simp] theorem State.drained_rx (s : State) :
    (s.drained).rx = s.rx := rfl
@[simp] theorem State.drained_rsp (s : State) :
    (s.drained).rsp = [] := rfl
@[simp] theorem State.drained_freeDraws (s : State) :
    (s.drained).freeDraws = s.freeDraws := rfl
@[simp] theorem State.drained_rst (s : State) :
    (s.drained).rst = s.rst := rfl
@[simp] theorem State.drained_req (s : State) :
    (s.drained).req = s.req := rfl
@[simp] theorem State.drained_rspReady (s : State) :
    (s.drained).rspReady = s.rspReady := rfl
@[simp] theorem State.drained_taken (s : State) :
    (s.drained).taken = s.taken ++ s.rsp := rfl
@[simp] theorem State.drained_variant (s : State) :
    (s.drained).variant = s.variant := rfl

@[simp] theorem State.withFetchWord_build (s : State) (nbits w : Nat) :
    (s.withFetchWord nbits w).build = s.build := rfl
@[simp] theorem State.withFetchWord_lattice (s : State) (nbits w : Nat) :
    (s.withFetchWord nbits w).lattice = s.lattice := rfl
@[simp] theorem State.withFetchWord_seeded (s : State) (nbits w : Nat) :
    (s.withFetchWord nbits w).seeded = s.seeded := rfl
@[simp] theorem State.withFetchWord_rx (s : State) (nbits w : Nat) :
    (s.withFetchWord nbits w).rx = [] := rfl
@[simp] theorem State.withFetchWord_rsp (s : State) (nbits w : Nat) :
    (s.withFetchWord nbits w).rsp = [] := rfl
@[simp] theorem State.withFetchWord_freeDraws (s : State) (nbits w : Nat) :
    (s.withFetchWord nbits w).freeDraws = s.freeDraws := rfl
@[simp] theorem State.withFetchWord_rst (s : State) (nbits w : Nat) :
    (s.withFetchWord nbits w).rst = false := rfl
@[simp] theorem State.withFetchWord_req (s : State) (nbits w : Nat) :
    (s.withFetchWord nbits w).req = tableBeats s.variant nbits w ++ s.req := rfl
@[simp] theorem State.withFetchWord_rspReady (s : State) (nbits w : Nat) :
    (s.withFetchWord nbits w).rspReady = s.rspReady := rfl
@[simp] theorem State.withFetchWord_taken (s : State) (nbits w : Nat) :
    (s.withFetchWord nbits w).taken = s.taken := rfl
@[simp] theorem State.withFetchWord_variant (s : State) (nbits w : Nat) :
    (s.withFetchWord nbits w).variant = s.variant := rfl

/-- Two updates of `S` alone: the later one stands. -/
@[simp] theorem State.withLattice_withLattice (s : State) (l l' : Lattice) :
    (s.withLattice l).withLattice l' = s.withLattice l' := rfl

/-- Installing the `S` an instance already has changes nothing. -/
@[simp] theorem State.withLattice_self (s : State) : s.withLattice s.lattice = s := rfl

/-- Which instance `State.resetOf` makes. -/
@[simp] theorem State.resetOf_variant (v : Variant) (b : Build) : (State.resetOf v b).variant = v := by
  simp only [State.variant, State.resetOf, Lattice.tabulate_variant]

/-- The parameters are those given. -/
@[simp] theorem State.resetOf_build (v : Variant) (b : Build) : (State.resetOf v b).build = b := rfl

end Sys2Proof.Machine
end

