-- ==== Sys2Proof/Laws/Ops.lean ====
section
/-! SUPPORT. One lemma for each operation the commands share: everything it can answer. -/

namespace Sys2Proof.Machine

/-- Raising a status answers one header and changes nothing else. -/
@[simp] theorem State.raise_eq_next (s : State) (st : Status) (opc : Byte) (info : Word32) (t : State) :
    s.raise st opc info = .next t ↔ t = s.respond st opc info [] := by
  simp [State.raise, eq_comm]

/-- Answering sends one OK response and changes nothing else. -/
@[simp] theorem State.answer_eq_next (s : State) (opc : Byte) (payload : List Beat) (t : State) :
    s.answer opc payload = .next t ↔ t = s.respond .ok opc (BitVec.ofNat 32 payload.length) payload := by
  simp [State.answer, eq_comm]

/-- The test of SEEDED: the command's own effect, or the NOT_SEEDED response. -/
theorem State.ifSeeded_eq_next (s : State) (opc : Byte) (k : Result) (t : State) :
    s.ifSeeded opc k = .next t ↔
      (s.seeded = true ∧ k = .next t) ∨ (s.seeded = false ∧ t = s.respond .notSeeded opc 0 []) := by
  cases h : s.seeded <;> simp [State.ifSeeded, h]

/-- The two moves of the response stream: one beat to a ready host, or none. -/
theorem State.transferResponse_cases (s : State) :
    (∃ b bs, s.rsp = b :: bs ∧ s.rspReady = true ∧
      s.transferResponse = { s with rsp := bs, taken := s.taken ++ [b] }) ∨
    ((s.rsp = [] ∨ s.rspReady = false) ∧ s.transferResponse = s) := by
  cases hr : s.rsp with
  | nil => exact .inr ⟨.inl rfl, by simp [State.transferResponse, hr]⟩
  | cons b bs =>
    cases hy : s.rspReady with
    | false => exact .inr ⟨.inr rfl, by simp [State.transferResponse, hr, hy]⟩
    | true => exact .inl ⟨b, bs, rfl, rfl, by simp [State.transferResponse, hr, hy]⟩

/-- A fetch that succeeds decoded the stream, and left what follows the command. -/
theorem State.fetch_eq_ok (s : State) (i : Instr) (t : State) :
    s.fetch = .ok (i, t) ↔
      ∃ rest, decode s.variant (s.rx ++ s.req) = .ok (i, rest) ∧ t = { s with rx := [], req := rest } := by
  cases h : decode s.variant (s.rx ++ s.req) with
  | error e => simp [State.fetch, h]
  | ok p =>
    obtain ⟨j, rest⟩ := p
    simp only [State.fetch, h, Except.ok.injEq, Prod.mk.injEq]
    constructor
    · rintro ⟨rfl, rfl⟩
      exact ⟨rest, ⟨rfl, rfl⟩, rfl⟩
    · rintro ⟨rest', ⟨rfl, rfl⟩, rfl⟩
      exact ⟨rfl, rfl⟩

/-- What a command shows for it to have answered one response and changed besides at most `S`, to one of the same variant, and
SEEDED. -/
abbrev AnswersOnce (s : State) (opc : Byte) (r : Result) : Prop :=
  ∃ (l : Lattice) (x : Bool) (st : Status) (info : Word32) (payload : List Beat), l.variant = s.variant ∧
    r = .next ({ s with lattice := l, seeded := x }.respond st opc info payload)

theorem State.answersOnce_raise (s : State) (st : Status) (opc : Byte) (info : Word32) :
    AnswersOnce s opc (s.raise st opc info) :=
  ⟨s.lattice, s.seeded, st, info, [], rfl, rfl⟩

theorem State.answersOnce_construct (s : State) (l : Lattice) (opc : Byte) (payload : List Beat)
    (hl : l.variant = s.variant) : AnswersOnce s opc ((s.construct l).answer opc payload) :=
  ⟨l, true, .ok, _, payload, hl, rfl⟩

theorem State.answersOnce_ifSeeded (s : State) (l : Lattice) (opc : Byte) (payload : List Beat)
    (hl : l.variant = s.variant) : AnswersOnce s opc (s.ifSeeded opc ((s.withLattice l).answer opc payload)) := by
  cases h : s.seeded with
  | true => exact ⟨l, s.seeded, .ok, _, payload, hl, (s.ifSeeded_eq_next _ _ _).2 (.inl ⟨h, rfl⟩)⟩
  | false => exact ⟨s.lattice, s.seeded, .notSeeded, 0, [], rfl, (s.ifSeeded_eq_next _ _ _).2 (.inr ⟨h, rfl⟩)⟩

/-- Every command answers one response after what was pending, and changes besides at most `S` and SEEDED. -/
theorem exec_cases (i : Instr) (s : State) : AnswersOnce s i.opcode (exec i s) := by
  cases i with
  | loadState ws =>
    rw [exec, execLoadState]
    split
    · exact s.answersOnce_construct _ _ _ (Lattice.tabulate_variant _ _)
    · exact s.answersOnce_raise _ _ _
  | readState => exact s.answersOnce_ifSeeded s.lattice _ _ rfl
  | nextU32 => exact s.answersOnce_ifSeeded _ _ _ (native_variant _ _)
  | nextU64 => exact s.answersOnce_ifSeeded _ _ _ (nextU64Value_variant _ _)
  | fillBytes n => exact s.answersOnce_ifSeeded _ _ _ (fillBuffer_variant _ _ _)
  | seedU64 seed => exact s.answersOnce_construct _ _ _ (installSeed_variant _ _)
  | seedBytes bs => exact s.answersOnce_construct _ _ _ (installSeed_variant _ _)
  | step c => exact s.answersOnce_ifSeeded _ _ _ (advance_variant _ _)
  | reserved opc => exact s.answersOnce_raise _ _ _

/-- Everything a step can do: reset, move the response stream, perform a command, or wait for beats. -/
theorem step_cases (s t : State) (h : step s = .next t) :
    (s.rst = true ∧ t = s.hardwareReset) ∨
    (s.rst = false ∧ s.rsp ≠ [] ∧ t = s.transferResponse) ∨
    (s.rst = false ∧ s.rsp = [] ∧ ∃ i rest, decode s.variant (s.rx ++ s.req) = .ok (i, rest) ∧
      exec i { s with rx := [], req := rest } = .next t) ∨
    (s.rst = false ∧ s.rsp = [] ∧ (∃ e, decode s.variant (s.rx ++ s.req) = .error e) ∧ t = s.awaitBeats) := by
  unfold step at h
  cases hr : s.rst with
  | true => exact .inl ⟨rfl, by simpa [hr, eq_comm] using h⟩
  | false =>
    cases hp : s.rsp with
    | cons b bs => exact .inr (.inl ⟨rfl, by simp, by simpa [hr, hp, eq_comm] using h⟩)
    | nil =>
      cases hd : decode s.variant (s.rx ++ s.req) with
      | error e => exact .inr (.inr (.inr ⟨rfl, rfl, ⟨e, rfl⟩, by simpa [hr, hp, State.fetch, hd, eq_comm] using h⟩))
      | ok p => exact .inr (.inr (.inl ⟨rfl, rfl, p.1, p.2, rfl, by simpa [hr, hp, State.fetch, hd] using h⟩))

end Sys2Proof.Machine
end

