-- ==== Sys2Proof/Laws/Decode.lean ====
section
/-! SUPPORT. Headers and byte beats: the fields of a made header, and the bytes of a made beat. -/

namespace Sys2Proof

@[simp] theorem headerOpc_makeHeader (o : Byte) (a : Word32) : headerOpc (makeHeader o a) = o := by
  ext j hj
  have : j < 32 := by omega
  have : j < 64 := by omega
  simp [headerOpc, makeHeader, *]

@[simp] theorem headerArg_makeHeader (o : Byte) (a : Word32) : headerArg (makeHeader o a) = a := by
  ext j hj
  have h1 : ¬ 32 + j < 32 := by omega
  have h2 : 32 + j < 64 := by omega
  simp [headerArg, makeHeader, hj, h1, h2, BitVec.getLsbD_of_ge o (32 + j) (by omega), BitVec.getLsbD_eq_getElem]

/-- Where a stream has no whole command (R71, R155, R166). -/
theorem decode_eq_error (v : Variant) (beats : List Beat) (e : DecodeError) :
    decode v beats = .error e ↔
      (beats = [] ∧ e = .noHeader) ∨
      ∃ h rest, beats = h :: rest ∧ rest.length < payloadBeats v h ∧
        e = .payloadIncomplete (payloadBeats v h - rest.length) := by
  cases beats with
  | nil => simp [decode, eq_comm]
  | cons h rest =>
    by_cases hlt : rest.length < payloadBeats v h
    · simp [decode, hlt, eq_comm]
    · simp [decode, hlt]

/-- Where a stream begins with a whole command (R62, R71, R75). -/
theorem decode_eq_ok (v : Variant) (beats : List Beat) (i : Instr) (tail : List Beat) :
    decode v beats = .ok (i, tail) ↔
      ∃ h payload, beats = h :: payload ++ tail ∧ payload.length = payloadBeats v h ∧ i = assemble v h payload := by
  cases beats with
  | nil => simp [decode]
  | cons h rest =>
    by_cases hlt : rest.length < payloadBeats v h
    · simp only [decode, hlt, if_true, reduceCtorEq, false_iff, List.cons_append, List.cons.injEq]
      rintro ⟨h', payload, ⟨rfl, rfl⟩, hlen, -⟩
      rw [List.length_append] at hlt
      omega
    · simp only [decode, hlt, if_false, Except.ok.injEq, Prod.mk.injEq, List.cons_append, List.cons.injEq]
      constructor
      · rintro ⟨rfl, rfl⟩
        exact ⟨h, rest.take (payloadBeats v h), ⟨rfl, (List.take_append_drop _ _).symm⟩, by simp; omega, rfl⟩
      · rintro ⟨h', payload, ⟨rfl, rfl⟩, hlen, rfl⟩
        rw [← hlen]
        simp
/-- Bit `i` of an OR of words taken over a list. -/
theorem foldl_or_getLsbD {w : Nat} (g : Nat → BitVec w) (js : List Nat) (acc : BitVec w) (i : Nat) :
    (js.foldl (fun acc j => acc ||| g j) acc).getLsbD i = (acc.getLsbD i || js.any fun j => (g j).getLsbD i) := by
  induction js generalizing acc with
  | nil => simp
  | cons j js ih => simp [ih, Bool.or_assoc]

/-- R69: bit `b` of byte `q` of a byte beat. -/
theorem beatOfBytes_getLsbD (f : Nat → Byte) (q b : Nat) (hq : q < 8) (hb : b < 8) :
    (beatOfBytes f).getLsbD (8 * q + b) = (f q).getLsbD b := by
  rw [beatOfBytes, foldl_or_getLsbD, Bool.eq_iff_iff]
  have h0 : (0 : Beat).getLsbD (8 * q + b) = false := BitVec.getLsbD_zero
  simp only [h0, Bool.false_or, List.any_eq_true, List.mem_range, BitVec.getLsbD_shiftLeft,
    BitVec.getLsbD_setWidth, Bool.and_eq_true, decide_eq_true_eq, Bool.not_eq_true', decide_eq_false_iff_not]
  constructor
  · rintro ⟨j, hj, ⟨-, hle⟩, -, hbit⟩
    have := BitVec.lt_of_getLsbD hbit
    obtain rfl : j = q := by omega
    simpa using hbit
  · intro h
    exact ⟨q, hq, ⟨by omega, by omega⟩, by omega, by simpa using h⟩

theorem beatOfBytes_extract (f : Nat → Byte) (q : Nat) (hq : q < 8) :
    (beatOfBytes f).extractLsb' (8 * q) 8 = f q := by
  ext b hb
  simpa [BitVec.getLsbD_eq_getElem hb] using beatOfBytes_getLsbD f q b hq hb

theorem beatBytes_beatOfBytes (f : Nat → Byte) : beatBytes (beatOfBytes f) = (List.range 8).map f := by
  apply List.map_congr_left
  intro j hj
  exact beatOfBytes_extract f j (List.mem_range.1 hj)

@[simp] theorem beatBytes_length (b : Beat) : (beatBytes b).length = 8 := by simp [beatBytes]
@[simp] theorem byteBeats_length (bs : List Byte) : (byteBeats bs).length = ceilDiv bs.length 8 := by simp [byteBeats]

theorem flatMap_beatBytes_length (ps : List Beat) : (ps.flatMap beatBytes).length = 8 * ps.length := by
  induction ps with
  | nil => rfl
  | cons p ps ih => simp [ih]; omega

/-- Byte `k` of a payload sits in beat `k / 8` (R69). -/
theorem flatMap_beatBytes_getD (ps : List Beat) (k : Nat) (hk : k < 8 * ps.length) :
    (ps.flatMap beatBytes).getD k 0 = (ps.getD (k / 8) 0).extractLsb' (8 * (k % 8)) 8 := by
  induction ps generalizing k with
  | nil => simp at hk
  | cons p ps ih =>
    rw [List.flatMap_cons]
    by_cases h : k < 8
    · rw [List.getD_append _ _ _ _ (by simpa using h), Nat.div_eq_of_lt h, Nat.mod_eq_of_lt h]
      simp [beatBytes, List.getD_eq_getElem?_getD, h]
    · rw [List.getD_append_right _ _ _ _ (by simpa using h)]
      simp only [List.length_cons] at hk
      obtain ⟨m, rfl⟩ : ∃ m, k = m + 8 := ⟨k - 8, by omega⟩
      rw [beatBytes_length, Nat.add_sub_cancel, ih m (by omega)]
      have h1 : (m + 8) / 8 = m / 8 + 1 := by omega
      simp [h1]

theorem byteBeats_getD (bs : List Byte) (i : Nat) (hi : i < ceilDiv bs.length 8) :
    (byteBeats bs).getD i 0 = beatOfBytes fun j => bs.getD (8 * i + j) 0 := by
  simp [byteBeats, List.getD_eq_getElem?_getD, hi]

/-- R69: byte `k` of the byte beats of a sequence is its byte `k`, and 0 past its end. -/
theorem byteBeats_byte (bs : List Byte) (k : Nat) (hk : k < 8 * (byteBeats bs).length) :
    ((byteBeats bs).getD (k / 8) 0).extractLsb' (8 * (k % 8)) 8 = bs.getD k 0 := by
  rw [byteBeats_length] at hk
  rw [byteBeats_getD bs _ (by omega), beatOfBytes_extract _ _ (by omega)]
  congr 1; omega

/-- Reading back the byte beats of a sequence gives the sequence. -/
theorem byteBeats_roundtrip (bs : List Byte) : ((byteBeats bs).flatMap beatBytes).take bs.length = bs := by
  have hle : bs.length ≤ 8 * (byteBeats bs).length := by simp [ceilDiv]; omega
  apply List.ext_getElem
  · rw [List.length_take, flatMap_beatBytes_length]; omega
  · intro k h1 h2
    have hk : k < 8 * (byteBeats bs).length := by omega
    have := flatMap_beatBytes_getD (byteBeats bs) k hk
    rw [byteBeats_byte bs k hk] at this
    simp only [List.getElem_take]
    rw [List.getD_eq_getElem _ _ (by rw [flatMap_beatBytes_length]; exact hk), List.getD_eq_getElem _ _ h2] at this
    exact this
end Sys2Proof
end

