-- ==== Sys2Proof/Laws/PerInstr.lean ====
section
/-! SUPPORT. Laws that hold of every instruction, proved one constructor at a time. -/

namespace Sys2Proof.Laws.Framing

/-- The header of a well-formed command announces the payload that follows it (R71), its other fields being OPC, ARG and a
RSVD of 0 (R63, R76). -/
def Statement (i : Instr) : Prop :=
  ∀ v : Variant, i.wellFormed v = true →
    payloadBeats v (makeHeader i.opcode i.arg) = i.payload.length ∧
    headerOpc (makeHeader i.opcode i.arg) = i.opcode ∧ headerArg (makeHeader i.opcode i.arg) = i.arg ∧
    (makeHeader i.opcode i.arg).extractLsb' 8 24 = 0

/-- RSVD of a made header is 0 (R63). -/
theorem rsvd_makeHeader (o : Byte) (a : Word32) : (makeHeader o a).extractLsb' 8 24 = 0 := by
  ext j hj
  have h1 : 8 + j < 32 := by omega
  simp [makeHeader, h1]

/-- Only the payload count is left to show. -/
theorem of_payload {i : Instr}
    (h : ∀ v : Variant, i.wellFormed v = true → payloadBeats v (makeHeader i.opcode i.arg) = i.payload.length) :
    Statement i :=
  fun v hw => ⟨h v hw, headerOpc_makeHeader _ _, headerArg_makeHeader _ _, rsvd_makeHeader _ _⟩

theorem loadState (ws : List Beat) : Statement (.loadState ws) := of_payload fun v hw => by
  simp only [Instr.wellFormed, decide_eq_true_eq] at hw
  simp [payloadBeats, Instr.opcode, Instr.arg, Instr.payload]
  omega

theorem readState : Statement .readState := of_payload fun v _ => by
  simp [payloadBeats, Instr.opcode, Instr.payload, opcReadState, opcLoadState, opcSeedU64, opcSeedBytes]

theorem nextU32 : Statement .nextU32 := of_payload fun v _ => by
  simp [payloadBeats, Instr.opcode, Instr.payload, opcNextU32, opcLoadState, opcSeedU64, opcSeedBytes]

theorem nextU64 : Statement .nextU64 := of_payload fun v _ => by
  simp [payloadBeats, Instr.opcode, Instr.payload, opcNextU64, opcLoadState, opcSeedU64, opcSeedBytes]

theorem fillBytes (nbytes : Word32) : Statement (.fillBytes nbytes) := of_payload fun v _ => by
  simp [payloadBeats, Instr.opcode, Instr.payload, opcFillBytes, opcLoadState, opcSeedU64, opcSeedBytes]

theorem seedU64 (seed : Beat) : Statement (.seedU64 seed) := of_payload fun v _ => by
  simp [payloadBeats, Instr.opcode, Instr.payload, opcSeedU64, opcLoadState]

theorem seedBytes (bs : List Byte) : Statement (.seedBytes bs) := of_payload fun v hw => by
  simp only [Instr.wellFormed, beq_iff_eq] at hw
  simp [payloadBeats, Instr.opcode, Instr.payload, opcSeedU64, opcLoadState, opcSeedBytes, hw]

theorem step (count : Word32) : Statement (.step count) := of_payload fun v _ => by
  simp [payloadBeats, Instr.opcode, Instr.payload, opcStep, opcLoadState, opcSeedU64, opcSeedBytes]

theorem reserved (opc : Byte) : Statement (.reserved opc) := of_payload fun v hw => by
  have hne : opc ≠ opcLoadState ∧ opc ≠ opcSeedU64 ∧ opc ≠ opcSeedBytes := by
    refine ⟨?_, ?_, ?_⟩ <;> rintro rfl <;> simp only [Instr.wellFormed] at hw <;> exact absurd hw (by decide)
  simp [payloadBeats, Instr.opcode, Instr.payload, hne]

end Sys2Proof.Laws.Framing
end

