-- ==== Sys2Proof/Laws/Response.lean ====
section
/-! SUPPORT. The four fields of a response header (R66), each read back as written. -/

namespace Sys2Proof.Machine

@[simp] theorem responseHeader_status (st : Status) (opc : Byte) (info : Word32) :
    (responseHeader st opc info).extractLsb' 0 8 = st.code := by
  ext j hj
  have : j < 32 := by omega
  have : j < 64 := by omega
  simp [responseHeader, *]

@[simp] theorem responseHeader_ropc (st : Status) (opc : Byte) (info : Word32) :
    (responseHeader st opc info).extractLsb' 8 8 = opc := by
  ext j hj
  have : 8 + j < 32 := by omega
  have : 8 + j < 64 := by omega
  simp [responseHeader, *, BitVec.getLsbD_eq_getElem]

@[simp] theorem responseHeader_zero (st : Status) (opc : Byte) (info : Word32) :
    (responseHeader st opc info).extractLsb' 16 16 = 0#16 := by
  ext j hj
  have h1 : 16 + j < 32 := by omega
  have h2 : 16 + j < 64 := by omega
  have h3 : ¬ 16 + j < 8 := by omega
  simp [responseHeader, BitVec.getLsbD_of_ge st.code (16 + j) (by omega),
    BitVec.getLsbD_of_ge opc (16 + j - 8) (by omega), h1, h2, h3]

@[simp] theorem responseHeader_info (st : Status) (opc : Byte) (info : Word32) :
    (responseHeader st opc info).extractLsb' 32 32 = info := by
  ext j hj
  have h1 : ¬ 32 + j < 32 := by omega
  have h2 : 32 + j < 64 := by omega
  have h3 : ¬ 32 + j < 8 := by omega
  simp [responseHeader, BitVec.getLsbD_of_ge st.code (32 + j) (by omega),
    BitVec.getLsbD_of_ge opc (32 + j - 8) (by omega), h1, h2, h3, BitVec.getLsbD_eq_getElem hj]

/-- R67: the status codes are told apart. -/
@[simp] theorem Status.code_eq_zero (st : Status) : st.code = 0 ↔ st = .ok := by
  cases st <;> decide

/-- What `responseOk` says of a header and its payload. -/
theorem responseOk_cons (h : Beat) (payload : List Beat) :
    responseOk (h :: payload) = true ↔
      (statusField h).toNat ≤ 3 ∧ zeroField h = 0 ∧
        (statusField h = 0 → payload.length = (infoField h).toNat) ∧ (statusField h ≠ 0 → payload = []) := by
  rw [responseOk]
  split_ifs with h0
  · simp only [h0, Bool.and_eq_true, decide_eq_true_eq, beq_iff_eq, true_imp_iff, ne_eq, not_true_eq_false, false_imp_iff,
      and_true, and_assoc]
  · simp only [h0, Bool.and_eq_true, decide_eq_true_eq, beq_iff_eq, List.isEmpty_iff, ne_eq, not_false_eq_true,
      true_imp_iff, false_imp_iff, true_and, and_assoc]

/-- A partial command is one the decoder rejects. -/
theorem State.commandPartial_iff (s : State) : s.commandPartial = true ↔ ∃ e, decode s.variant s.rx = .error e := by
  unfold State.commandPartial
  split <;> simp_all

/-- With nothing pending there is nothing to complete. -/
theorem State.pendingIsRestOfAResponse_of_nil {s : State} (h : s.rsp = []) : s.pendingIsRestOfAResponse := .inl h

/-- A whole response pending is the rest of itself, whatever the host took before. -/
theorem State.pendingIsRestOfAResponse_of_whole {s : State} (h : responseOk s.rsp = true) : s.pendingIsRestOfAResponse :=
  .inr ⟨[], List.nil_suffix, h⟩

/-- Moving one pending beat to the end of `taken` leaves the rest of the same response. -/
theorem State.pendingIsRestOfAResponse_transfer {s : State} {b : Beat} {bs : List Beat} (hs : s.pendingIsRestOfAResponse)
    (h : s.rsp = b :: bs) :
    State.pendingIsRestOfAResponse { s with rsp := bs, taken := s.taken ++ [b] } := by
  obtain hn | ⟨sent, ⟨before, hb⟩, hw⟩ := hs
  · exact absurd (h.symm.trans hn) (List.cons_ne_nil b bs)
  · exact .inr ⟨sent ++ [b], ⟨before, by simp [← hb]⟩, by simpa [h] using hw⟩

end Sys2Proof.Machine
end

