-- ==== Sys2Proof/Laws/Bits.lean ====
section
/-! SUPPORT. What the bit and byte operations of the transitions, the seeding and the extraction give, bit by bit and byte by
byte, so that no proof unfolds them. -/

namespace Sys2Proof.Machine

/-- R11: bit `j` of `rotl_W(a, n)` is bit `(j - n) mod W` of `a`. -/
theorem rotl_getLsbD {w : Nat} (a : BitVec w) (n j : Nat) (hj : j < w) :
    (rotl a n).getLsbD j = a.getLsbD ((j + (w - n % w)) % w) := by
  have hn : n % w < w := Nat.mod_lt _ (by omega)
  rw [rotl]
  generalize n % w = m at *
  split_ifs with h0
  · subst h0
    rw [Nat.sub_zero, Nat.add_mod_right, Nat.mod_eq_of_lt hj]
  · simp only [BitVec.getLsbD_or, BitVec.getLsbD_shiftLeft, BitVec.getLsbD_ushiftRight, hj, decide_true, Bool.true_and]
    by_cases h : j < m
    · rw [Nat.mod_eq_of_lt (by omega), Nat.add_comm]
      simp [h]
    · have e : (j + (w - m)) % w = j - m := by
        rw [show j + (w - m) = j - m + w by omega, Nat.add_mod_right, Nat.mod_eq_of_lt (by omega)]
      rw [e, BitVec.getLsbD_of_ge a (w - m + j) (by omega)]
      simp [h]

/-- The word that is one bit: bit 0 of `bitAt x i` is bit `i` of `x`, and the others are 0. -/
theorem bitAt_getLsbD (x : Word32) (i j : Nat) : (bitAt x i).getLsbD j = (decide (j = 0) && x.getLsbD i) := by
  simp only [bitAt, BitVec.getLsbD_and, BitVec.getLsbD_ushiftRight, show (1 : Word32) = 1#32 from rfl, BitVec.getLsbD_one]
  by_cases h : j = 0 <;> simp [h]

/-- R8: `P_NATIVE_MASK` selects bits 29..1. -/
theorem nativeMask_getLsbD (j : Nat) : nativeMask.getLsbD j = (decide (1 ≤ j) && decide (j ≤ 29)) := by
  by_cases hj : j < 32
  · revert hj j
    decide
  · rw [BitVec.getLsbD_of_ge _ _ (by omega)]
    simp
    omega

/-- R81, bit by bit, a neighbour past either end reading 0. -/
theorem rule30w_getLsbD (x : Word32) (j : Nat) (hj : j < 32) :
    (rule30w x).getLsbD j = Bool.xor (x.getLsbD (j + 1)) (x.getLsbD j || (decide (0 < j) && x.getLsbD (j - 1))) := by
  simp only [rule30w, BitVec.getLsbD_xor, BitVec.getLsbD_or, BitVec.getLsbD_ushiftRight, BitVec.getLsbD_shiftLeft, hj,
    decide_true, Bool.true_and, Nat.add_comm 1 j]
  congr 3
  by_cases h : 0 < j
  · simp [h]
    omega
  · simp [h]
    omega

/-- R14: the value of a byte list, least significant first. -/
theorem leValue_eq_sum (bs : List Byte) :
    leValue bs = ∑ j ∈ Finset.range bs.length, (bs.getD j 0).toNat * 256 ^ j := by
  induction bs with
  | nil => rfl
  | cons b bs ih =>
    rw [leValue, ih, List.length_cons, Finset.sum_range_succ', Finset.mul_sum, add_comm]
    simp only [List.getD_cons_succ, List.getD_cons_zero, pow_zero, mul_one, pow_succ]
    congr 1
    exact Finset.sum_congr rfl fun _ _ => by ring

/-- `n` bytes hold a value below `256^n`. -/
theorem leValue_lt (bs : List Byte) : leValue bs < 256 ^ bs.length := by
  induction bs with
  | nil => simp [leValue]
  | cons b bs ih =>
    rw [leValue, List.length_cons, pow_succ]
    have := b.isLt
    omega

/-- R14 at an offset (R42), where the bytes are there. -/
theorem leWordAt_eq_sum (n off : Nat) (bs : List Byte) (h : off + n ≤ bs.length) :
    leWordAt n off bs = ∑ j ∈ Finset.range n, (bs.getD (off + j) 0).toNat * 256 ^ j := by
  rw [leWordAt, leValue_eq_sum, List.length_take, List.length_drop, Nat.min_eq_left (by omega)]
  refine Finset.sum_congr rfl fun j hj => ?_
  simp [List.getD_eq_getElem?_getD, Finset.mem_range.1 hj]

/-- A word of `n` bytes is below `256^n`. -/
theorem leWordAt_lt (n off : Nat) (bs : List Byte) : leWordAt n off bs < 256 ^ n :=
  lt_of_lt_of_le (leValue_lt _) (Nat.pow_le_pow_right (by norm_num) (by simp))

@[simp] theorem leBytes_length {w : Nat} (n : Nat) (v : BitVec w) : (leBytes n v).length = n := by simp [leBytes]

/-- R14: byte `k` of `LE_bytes_n(v)`. -/
theorem leBytes_getD {w : Nat} (n : Nat) (v : BitVec w) (k : Nat) (hk : k < n) :
    (leBytes n v).getD k 0 = v.extractLsb' (8 * k) 8 := by
  simp [leBytes, List.getD_eq_getElem?_getD, hk]

@[simp] theorem pcgBytes_length (m : Nat) (seed : Word64) : (pcgBytes m seed).length = 4 * m := by
  induction m generalizing seed with
  | zero => rfl
  | succ m ih =>
    rw [pcgBytes, List.length_append, leBytes_length, ih]
    omega

/-- A seed expansion has the length it was asked for, whichever it is. -/
@[simp] theorem seedExpand_length (e : SeedExpansion) (seed : Word64) (n : Nat) : (seedExpand e seed n).length = n := by
  cases e with
  | pcg32 =>
    simp only [seedExpand, List.length_take, pcgBytes_length, ceilDiv]
    omega
  | other id => simp [seedExpand]

/-- R107: a native word gives `W/8` bytes. -/
@[simp] theorem native_bytes_length (b : Build) (l : Lattice) : (native b l).1.bytes.length = l.variant.width / 8 := by
  cases l <;> simp [native, NativeWord.bytes, Lattice.variant, Variant.width]

end Sys2Proof.Machine
end

