-- ==== Sys2Proof/Tests/Slice0.lean ====
section
/-! SUPPORT. Tests of the model. Expected values are the spec's own (95_test_vectors.md, R78, and the worked examples of the
command rules). The witnesses at the end meet the hypotheses of the obligation that each is named after. -/

namespace Sys2Proof.Tests

open Sys2Proof Sys2Proof.Machine

/-! ### Helpers -/

/-- A seeded idle instance that holds `l`, with the reference parameters. -/
def inst (l : Lattice) : State := { State.resetOf l.variant Build.reference with lattice := l, seeded := true }

/-- An instance right after reset that is offered `req`. -/
def fresh (v : Variant) (req : List Beat) : State := { State.resetOf v Build.reference with req := req }

/-- The pending response beats of a next state. -/
def rspOf : Result → List Beat
  | .next t => t.rsp
  | .fault _ => []
  | .refused _ => []

/-- Word `k` of the StateArray of a next state. -/
def wordOf (k : Nat) : Result → Word64
  | .next t => t.lattice.word k
  | .fault _ => 0
  | .refused _ => 0

/-- All words equal to `w`. -/
def all (v : Variant) (w : Word64) : Lattice := Lattice.tabulate v fun _ => w

/-- Word `k` is `w`, the others 0. -/
def only (v : Variant) (k : Nat) (w : Word64) : Lattice := Lattice.tabulate v fun j => if j = k then w else 0

/-- V-G-1 on ECA1: words 0, 20, 40 and 60 are 1, the others 0. -/
def fourOnes : Lattice := Lattice.tabulate .eca1 fun j => if j % 20 = 0 then 1 else 0

/-! ### WellFormed: one ill-formed term for each check -/

theorem test_wf_refuses_load_too_long (v : Variant) (ws : List Beat) (h : ws.length = 2 ^ 32) :
    (Instr.loadState ws).wellFormed v = false := by simp [Instr.wellFormed, h]

theorem test_wf_refuses_seed_bytes_short : (Instr.seedBytes (List.replicate 35 0)).wellFormed .r30p = false := by decide

theorem test_wf_refuses_reserved_with_opcode_in_use :
    (Instr.reserved 0x01).wellFormed .r30p = false ∧ (Instr.reserved 0x08).wellFormed .r30p = false := by decide

theorem test_wf_accepts_reserved :
    (Instr.reserved 0x00).wellFormed .eca1 = true ∧ (Instr.reserved 0x09).wellFormed .eca1 = true ∧
      (Instr.reserved 0xFF).wellFormed .eca1 = true := by decide

/-! ### Decoding: words written out from R63, R70, R78 and 95_test_vectors.md section 2.9 -/

/-- 2.9: `0x0000_0009_0000_0001` is LOAD_STATE L = 9; its nine beats are its operand, and a tenth beat is not taken. -/
theorem test_decode_load_state :
    decode .r30p (0x0000000900000001 :: List.replicate 10 2) = .ok (.loadState (List.replicate 9 2), [2]) := by decide

theorem test_decode_read_state : decode .r30p [0x0000000000000002, 7] = .ok (.readState, [7]) := by decide

/-- 2.9: ARG is ignored. -/
theorem test_decode_next_u32 : decode .eca1 [0x1234567800000003] = .ok (.nextU32, []) := by decide

theorem test_decode_next_u64 : decode .eca2 [0x0000000000000004] = .ok (.nextU64, []) := by decide

/-- R78, and 2.9: RSVD = 0xABCD is ignored. -/
theorem test_decode_fill_bytes : decode .r30c [0x0000000D00000005] = .ok (.fillBytes 13, []) ∧
    decode .eca1 [0x0000000000ABCD05] = .ok (.fillBytes 0, []) := by decide

/-- Program P1. -/
theorem test_decode_seed_u64 : decode .r30p [0x0000000000000006, 0x2A, 3] = .ok (.seedU64 42, [3]) := by decide

/-- Program P5. -/
theorem test_decode_seed_bytes : decode .r30c [0x0000000000000007, 0x000000057BA18FA4, 3] =
    .ok (.seedBytes [0xA4, 0x8F, 0xA1, 0x7B, 0x05, 0x00, 0x00, 0x00], [3]) := by decide

/-- R78 and 2.9. -/
theorem test_decode_step : decode .r30p [0x0000000100000008] = .ok (.step 1, []) ∧
    decode .r30p [0xFFFFFFFF00000008] = .ok (.step 4294967295, []) := by decide

/-- 2.9: no payload is consumed. -/
theorem test_decode_reserved : decode .r30p [0x00000007000000FF, 5] = .ok (.reserved 0xFF, [5]) ∧
    decode .r30p [0x0000000000000109] = .ok (.reserved 0x09, []) ∧ decode .r30p [0] = .ok (.reserved 0, []) := by decide

theorem test_decode_incomplete : decode .r30p [] = .error .noHeader ∧
    decode .r30p [0x0000000000000007, 1, 2] = .error (.payloadIncomplete 3) := by decide

/-- Rows of the opcode table, by their `match` words. -/
theorem test_table_words : decodeTableWord 64 0x02 = some .readState ∧ decodeTableWord 8 0x03 = some .nextU32 ∧
    decodeTableWord 64 0x07 = some (.seedBytes (List.replicate 36 0)) ∧
    decodeTableWord 64 0x0000000500000005 = some (.fillBytes 5) ∧ decodeTableWord 64 0x00 = some (.reserved 0) := by decide

/-- Program P5's payload, from its bytes. -/
theorem test_encode_seed_bytes : encode (.seedBytes [0xA4, 0x8F, 0xA1, 0x7B, 0x05, 0x00, 0x00, 0x00]) =
    [0x0000000000000007, 0x000000057BA18FA4] := by decide

/-! ### Commands -/

/-- 2.7 and P6: nine beats `0xFFFF_FFFF_C000_0001` are stored as `0xC000_0001`. -/
theorem test_load_state_stores_as_given :
    wordOf 8 (exec (.loadState (List.replicate 9 0xFFFFFFFFC0000001)) (fresh .r30p [])) = 0xC0000001 := by decide

/-- V-ERR-1 on R30C, L = 2. -/
theorem test_load_state_wrong_length :
    rspOf (exec (.loadState [1, 2]) (inst (all .r30c 0xDE000))) = [0x0000000100000101] ∧
      wordOf 0 (exec (.loadState [1, 2]) (inst (all .r30c 0xDE000))) = 0xDE000 := by decide

/-- 2.7: the header and nine beats. -/
theorem test_read_state :
    rspOf (exec .readState (inst (all .r30p 2))) = 0x0000000900000200 :: List.replicate 9 2 := by decide

/-- V-ERR-2. -/
theorem test_read_state_before_seeding : rspOf (exec .readState (fresh .eca1 [])) = [0x203] := by decide

/-- V-X-3. -/
theorem test_next_u32_packed : rspOf (exec .nextU32 (inst (only .r30p 0 2))) = [0x100000300, 0x04000108] ∧
    wordOf 8 (exec .nextU32 (inst (only .r30p 0 2))) = 0x44000000 := by decide +kernel

/-- V-X-6. -/
theorem test_next_u32_compact : rspOf (exec .nextU32 (inst (all .r30c 0x00010000))) = [0x100000300, 0x00002CFC] ∧
    wordOf 0 (exec .nextU32 (inst (all .r30c 0x00010000))) = 0xAA91726F := by decide +kernel

/-- V-G-3, ECA1 and ECA2: the bit of m_0 at position 60 is lost on ECA2. -/
theorem test_next_u64_eca :
    rspOf (exec .nextU64 (inst (only .eca1 0 0x1111111111111111))) = [0x100000400, 0x8888888888888888] ∧
      rspOf (exec .nextU64 (inst (only .eca2 0 0x1111111111111111))) = [0x100000400, 0x1111111111111110] := by decide

/-- 2.6: R30C from 0x0001_0000. -/
theorem test_next_u64_compact : rspOf (exec .nextU64 (inst (all .r30c 0x00010000))) =
    [0x100000400, 0x134517E900002CFC] := by decide +kernel

/-- R107's worked example and program P3: `FILL_BYTES 3` on ECA1, bytes 0F 00 00; and V-G-7 at word 79 after it. -/
theorem test_fill_bytes_eca : rspOf (exec (.fillBytes 3) (inst fourOnes)) = [0x100000500, 0x000000000000000F] ∧
    wordOf 79 (exec (.fillBytes 3) (inst fourOnes)) = 9 := by decide

/-- R107: FILL_BYTES 0 answers OK with no payload and takes no native word. -/
theorem test_fill_bytes_zero : rspOf (exec (.fillBytes 0) (inst (all .r30p 2))) = [0x500] ∧
    wordOf 3 (exec (.fillBytes 0) (inst (all .r30p 2))) = 2 := by decide

/-- 2.7: seed 42 on R30P, words 0, 1 and 8. -/
theorem test_seed_u64_packed : rspOf (exec (.seedU64 42) (fresh .r30p [])) = [0x600] ∧
    wordOf 0 (exec (.seedU64 42) (fresh .r30p [])) = 0x7BA18FA4 ∧
    wordOf 1 (exec (.seedU64 42) (fresh .r30p [])) = 0x0A3D3258 ∧
    wordOf 8 (exec (.seedU64 42) (fresh .r30p [])) = 0xC3340BFB := by decide

/-- 2.7: seeds 0 and 1, first 8 bytes. -/
theorem test_seed_expansion :
    seedExpand .pcg32 0 8 = [0xEC, 0xF2, 0x73, 0xF9, 0x81, 0xB5, 0xCD, 0x45] ∧
      seedExpand .pcg32 1 8 = [0xEA, 0xD8, 0x1D, 0x72, 0x5D, 0x26, 0x10, 0x4E] := by decide

/-- 2.7: payload beat `0x0000_0000_7BA1_8FA4`, skip 0; and skip 1, with V-C-7. -/
theorem test_seed_bytes_compact :
    wordOf 0 (exec (.seedBytes [0xA4, 0x8F, 0xA1, 0x7B, 0, 0, 0, 0]) (fresh .r30c [])) = 0x7BA18FA4 ∧
      wordOf 0 (exec (.seedBytes [0xA4, 0x8F, 0xA1, 0x7B, 1, 0, 0, 0]) (fresh .r30c [])) = 0xC233583E := by decide

/-- V-P-3: the wrap from cell 0 to cell 260. -/
theorem test_step_packed_wraps : wordOf 8 (exec (.step 1) (inst (only .r30p 0 2))) = 0x60000000 ∧
    wordOf 0 (exec (.step 1) (inst (only .r30p 0 2))) = 7 := by decide

/-- V-E-1 and V-E-3: the halo at both ends; V-S-1: three steps on R30C. -/
theorem test_step_eca_and_compact : wordOf 79 (exec (.step 1) (inst (only .eca1 0 1))) = 9 ∧
    wordOf 1 (exec (.step 1) (inst (only .eca2 79 0xF))) = 0xF ∧
    wordOf 0 (exec (.step 3) (inst (all .r30c 0x00010000))) = 0x000DE000 := by decide

/-- V-ERR-3. -/
theorem test_reserved : rspOf (exec (.reserved 0xFF) (inst (all .r30p 2))) = [0xFF02] ∧
    rspOf (exec (.reserved 0x00) (fresh .r30c [])) = [0x0002] := by decide

/-! ### Steps -/

/-- Program P2's first command through the streams: performed, its response pending, the next header left on offer. -/
theorem test_step_performs : rspOf (step (fresh .r30c [0x100000001, 0x10000, 0x300000008])) = [0x100] ∧
    wordOf 0 (step (fresh .r30c [0x100000001, 0x10000, 0x300000008])) = 0x10000 := by decide

/-- R167: a host that is not ready holds the engine. -/
theorem test_step_response_waits :
    rspOf (step { fresh .r30c [0x02] with rsp := [0x203, 0x5], rspReady := false }) = [0x203, 0x5] ∧
      rspOf (step { fresh .r30c [0x02] with rsp := [0x203, 0x5] }) = [0x5] := by decide

/-- The opcode-table word of NEXT_U32 is run as the first instruction after reset: NOT_SEEDED (V-ERR-2). -/
theorem test_step_runs_fetch_word : rspOf (step (State.reset.withFetchWord 64 0x03)) = [0x303] := by decide

/-! ### Witnesses: for each obligation that has hypotheses, inputs that meet them, each clause at a boundary -/

theorem witness_DecodeInvertsEncode : (Instr.loadState []).wellFormed .r30p = true ∧
    (Instr.seedBytes (List.replicate 36 0)).wellFormed .r30p = true ∧ (Instr.reserved 9).wellFormed .r30c = true := by decide

theorem witness_DecodedCommandIsWellFormedAndFramed :
    decode .r30c [0x0000000000000007, 0x57BA18FA4, 3] = .ok (.seedBytes [0xA4, 0x8F, 0xA1, 0x7B, 5, 0, 0, 0], [3]) := by decide

theorem witness_EveryHeaderDecodesToOneOfNineCases :
    (([0] : List Beat).length = payloadBeats .r30p 0x100000001 ∧ ((0x100000001 : Beat).extractLsb' 0 8 = 0x01#8)) ∧
    (([] : List Beat).length = payloadBeats .r30p 0x02 ∧ ((0x02 : Beat).extractLsb' 0 8 = 0x02#8)) ∧
    (([] : List Beat).length = payloadBeats .r30p 0x03 ∧ ((0x03 : Beat).extractLsb' 0 8 = 0x03#8)) ∧
    (([] : List Beat).length = payloadBeats .r30p 0x04 ∧ ((0x04 : Beat).extractLsb' 0 8 = 0x04#8)) ∧
    (([] : List Beat).length = payloadBeats .r30p 0x05 ∧ ((0x05 : Beat).extractLsb' 0 8 = 0x05#8)) ∧
    (([42] : List Beat).length = payloadBeats .r30p 0x06 ∧ ((0x06 : Beat).extractLsb' 0 8 = 0x06#8)) ∧
    (([1, 2, 3, 4, 5] : List Beat).length = payloadBeats .r30p 0x07 ∧ ((0x07 : Beat).extractLsb' 0 8 = 0x07#8)) ∧
    (([] : List Beat).length = payloadBeats .r30p 0x08 ∧ ((0x08 : Beat).extractLsb' 0 8 = 0x08#8)) ∧
    (([] : List Beat).length = payloadBeats .r30p 0x00 ∧ ((0x00 : Beat).extractLsb' 0 8 = 0x00#8)) ∧
    (([] : List Beat).length = payloadBeats .r30p 0x09 ∧ 9 ≤ ((0x09 : Beat).extractLsb' 0 8).toNat) := by decide

/-- R30P SEED_BYTES asks for 5 beats: 4 are too few, 5 are enough. -/
theorem witness_PayloadLengthFollowsFromHeader :
    decode .r30p [0x07, 1, 2, 3, 4] = .error (.payloadIncomplete 1) ∧
      (∃ i, decode .r30p [0x07, 1, 2, 3, 4, 5] = .ok (i, [])) := ⟨by decide, _, rfl⟩

theorem witness_IgnoredHeaderBitsChangeNothing :
    ((0x0000000000ABCD05 : Beat).extractLsb' 0 8 : Byte) = (0x05 : Beat).extractLsb' 0 8 ∧
      ((0x0000000000ABCD05 : Beat).extractLsb' 32 32 : Word32) = (0x05 : Beat).extractLsb' 32 32 := by decide

theorem witness_InputPaddingIsIgnored :
    ((0x07 : Beat).extractLsb' 0 8 = 0x07#8 ∧ ((0x100000005 : Beat).setWidth 32 : Word32) = (5 : Beat).setWidth 32) ∧
      (fresh .r30c []).variant.width = 32 ∧ ∀ k, (([0x100000005] : List Beat).getD k 0).setWidth 32 =
        ((([0x5] : List Beat).getD k 0).setWidth 32 : Word32) :=
  ⟨by decide, by decide, fun k => match k with | 0 => rfl | _ + 1 => rfl⟩

theorem witness_StepPerformsTheDecodedCommand :
    (fresh .r30c [0x06, 42, 3]).rst = false ∧ (fresh .r30c [0x06, 42, 3]).rsp = [] ∧
      decode .r30c ([] ++ [0x06, 42, 3]) = .ok (.seedU64 42, [3]) := by decide

theorem witness_IncompleteCommandWaits :
    (fresh .r30c [0x06]).rst = false ∧ (fresh .r30c [0x06]).rsp = [] ∧
      decode .r30c ([] ++ [0x06]) = .error (.payloadIncomplete 1) := by decide

theorem witness_PendingResponseHoldsTheEngine :
    ({ fresh .r30c [] with rsp := [0x203] } : State).rsp = 0x203 :: [] ∧
      ({ fresh .r30c [] with rsp := [0x203] } : State).rspReady = true ∧
      ({ fresh .r30c [] with rsp := [0x203], rspReady := false } : State).rspReady = false := by decide

theorem witness_ResponseDrainsInOrder :
    ({ fresh .r30c [] with rsp := [0x300, 1] } : State).rst = false ∧
      ({ fresh .r30c [] with rsp := [0x300, 1] } : State).rspReady = true := by decide

theorem witness_BeatsTransferOnlyUnderHandshake :
    (∃ t, step { fresh .r30c [2] with rsp := [0x203], rspReady := false } = .next t) ∧
      ({ fresh .r30c [2] with rsp := [0x203], rspReady := false } : State).reqReady = false ∧
      ({ fresh .r30c [2] with rsp := [0x203], rspReady := false } : State).rspValid = true := ⟨⟨_, rfl⟩, by decide⟩

theorem witness_ResetAbandonsTheCommandAndUnseeds :
    ({ fresh .r30c [0x06, 42] with rst := true, rx := [0x07] } : State).rst = true ∧
      decode .r30c [0x06, 42] = .ok (.seedU64 42, []) := by decide

theorem witness_OnlyResetOrCommandChangesTheEngine :
    ∃ t, step (fresh .r30c [0x06, 42]) = .next t ∧ (fresh .r30c [0x06, 42]).rst = false ∧
      t.seeded ≠ (fresh .r30c [0x06, 42]).seeded := ⟨_, rfl, by decide, Bool.noConfusion⟩

theorem witness_SeededIsWrittenByConstructionAndResetAlone :
    (∃ t, step { fresh .r30c [] with rst := true } = .next t) ∧
    (∃ t, step { fresh .r30c [] with rsp := [0x203] } = .next t) ∧
    ((∃ t, step (fresh .r30c [0x07]) = .next t) ∧ decode .r30c ([] ++ [0x07]) = .error (.payloadIncomplete 1)) ∧
    ((∃ t, step (fresh .r30c [0x03]) = .next t) ∧ decode .r30c ([] ++ [0x03]) = .ok (.nextU32, [])) :=
  ⟨⟨_, rfl⟩, ⟨_, rfl⟩, ⟨⟨_, rfl⟩, by decide⟩, ⟨_, rfl⟩, by decide⟩

/-- A response of two beats, its header taken by the host and the second beat pending, and a step that transfers it. -/
theorem witness_InvariantIsKeptByEveryStep :
    ({ fresh .r30c [] with taken := [0x600, 0x100000300], rsp := [7] } : State).Inv .r30c Build.reference ∧
      ∃ t, step { fresh .r30c [] with taken := [0x600, 0x100000300], rsp := [7] } = .next t :=
  ⟨⟨rfl, rfl, by decide, .inr rfl, .inr ⟨[0x100000300], ⟨[0x600], rfl⟩, by decide⟩⟩, _, rfl⟩

/-- The invariant rules out a pending list that is the rest of no response: no beat was taken, and an OK header with INFO = 1
stands alone. -/
theorem test_inv_refuses_a_payload_short_of_info :
    ¬ ({ fresh .r30c [] with rsp := [0x100000300] } : State).Inv .r30c Build.reference := by
  rintro ⟨-, -, -, -, h | ⟨sent, hs, hr⟩⟩
  · cases h
  · obtain rfl : sent = [] := List.suffix_nil.1 hs
    exact absurd hr (by decide)

/-- The host offers a command, and a step performs it. -/
theorem witness_InvariantHoldsInEveryReachableState :
    ∃ t, step (fresh .r30c [3]) = .next t ∧ Reachable .r30c Build.reference t :=
  ⟨_, rfl, .step (.host (.offer [3]) .afterReset) rfl⟩

theorem witness_StreamOfCommandsIsPerformedInOrder :
    (∀ i ∈ [Instr.seedU64 42, .readState], i.wellFormed (fresh .r30p [0x06, 42, 0x02]).variant = true) ∧
      (fresh .r30p [0x06, 42, 0x02]).req = [Instr.seedU64 42, .readState].flatMap encode ∧
      (fresh .r30p [0x06, 42, 0x02]).rst = false ∧ (fresh .r30p [0x06, 42, 0x02]).rspReady = true ∧
      (fresh .r30p [0x06, 42, 0x02]).rx = [] ∧ (fresh .r30p [0x06, 42, 0x02]).rsp = [] := by decide

theorem witness_LatticeBeforeSeedingIsUnobservable :
    (fresh .r30c [0x03]).seeded = false ∧ (all .r30c 5).variant = (fresh .r30c [0x03]).variant ∧
      ∃ t, Sys2Proof.core.run 2 (fresh .r30c [0x03]) = .next t := ⟨by decide, by decide, _, rfl⟩

/-- Each of the four statuses. -/
theorem witness_EveryCommandGetsOneResponse :
    rspOf (exec .readState (inst (all .r30c 5))) = [0x100000200, 5] ∧
      rspOf (exec (.loadState []) (inst (all .r30c 5))) = [0x100000101] ∧
      rspOf (exec (.reserved 9) (inst (all .r30c 5))) = [0x902] ∧ (Instr.reserved 9).wellFormed .r30c = true ∧
      rspOf (exec (.step 0) (fresh .r30c [])) = [0x803] := by decide

theorem witness_PayloadCountOfAResponse : (∃ t, exec .readState (inst (all .r30c 5)) = .next t ∧
    t.rsp = [] ++ 0x100000200 :: [5] ∧ (0x100000200 : Beat).extractLsb' 0 8 = 0x00#8) ∧
    ∃ t, exec .readState (fresh .r30c []) = .next t ∧ t.rsp = [] ++ 0x203 :: [] ∧
      (0x203 : Beat).extractLsb' 0 8 ≠ 0x00#8 :=
  ⟨⟨_, rfl, by decide, by decide⟩, _, rfl, by decide, by decide⟩

theorem witness_ErrorChangesNoState : ∃ t, exec (.reserved 0) (inst (all .r30c 5)) = .next t ∧
    t.rsp = [] ++ 0x02 :: [] ∧ (0x02 : Beat).extractLsb' 0 8 ≠ 0x00#8 := ⟨_, rfl, by decide, by decide⟩

theorem witness_CommandsTouchOnlyTheEngineAndItsResponse : ∃ t, exec .nextU32 (inst (all .r30c 5)) = .next t := ⟨_, rfl⟩

/-- Each of the six forms. -/
theorem witness_CommandsThatLeaveTheLattice :
    (∃ t, exec .readState (inst (all .r30c 5)) = .next t) ∧ (∃ t, exec (.fillBytes 0) (inst (all .r30c 5)) = .next t) ∧
    (∃ t, exec (.step 0) (inst (all .r30c 5)) = .next t) ∧ (∃ t, exec (.reserved 9) (inst (all .r30c 5)) = .next t) ∧
    ((∃ t, exec (.loadState [1, 2]) (inst (all .r30c 5)) = .next t) ∧ 2 ≠ (inst (all .r30c 5)).variant.words) ∧
    (∃ t, exec (.step 1) (fresh .r30c []) = .next t) ∧ needsSeed (.step 1) = true :=
  ⟨⟨_, rfl⟩, ⟨_, rfl⟩, ⟨_, rfl⟩, ⟨_, rfl⟩, ⟨⟨_, rfl⟩, by decide⟩, ⟨_, rfl⟩, rfl⟩

/-- V-ERR-1: L = 0 and L = N + 1. -/
theorem witness_WrongLengthLoadIsConsumedAndRejected :
    (([] : List Beat).length ≠ (fresh .r30c [0x01]).variant.words ∧
      (fresh .r30c [0x01]).req = ((BitVec.ofNat 64 0 <<< 32) ||| 0x01#64) :: ([] ++ [])) ∧
    (([5, 6] : List Beat).length ≠ (fresh .r30c [0x200000001, 5, 6, 3]).variant.words ∧
      (fresh .r30c [0x200000001, 5, 6, 3]).req = ((BitVec.ofNat 64 2 <<< 32) ||| 0x01#64) :: ([5, 6] ++ [3])) ∧
    rspOf (exec (.loadState []) (fresh .r30c [])) = [] ++ 0x100000101 :: [] ∧
      (0x100000101 : Beat).extractLsb' 0 8 = 0x01#8 := by decide

theorem witness_ReservedOpcodeIsAnsweredIllegal :
    (fresh .r30c [0x00, 3]).req = 0x00 :: [3] ∧ (0x00 : Beat).extractLsb' 0 8 = 0x00#8 ∧
      (fresh .r30c [0x09]).req = 0x09 :: [] ∧ 9 ≤ ((0x09 : Beat).extractLsb' 0 8).toNat := by decide

theorem witness_CommandsBeforeSeedingAreRefused : (fresh .eca2 []).seeded = false := by decide

theorem witness_LoadStateInstallsTheWordsExactly :
    (List.replicate 9 (0 : Beat)).length = (fresh .r30p []).variant.words ∧
      (List.replicate 8 (0 : Beat)).length ≠ (fresh .r30p []).variant.words ∧ 8 < (fresh .r30p []).variant.words := by decide

theorem witness_ReadStateReturnsEveryWordAsStored :
    (inst (all .r30p 2)).seeded = true ∧ (∃ a, (inst (all .r30p 2)).lattice = .r30p a) ∧
      (∃ a, (inst (all .r30c 2)).lattice = .r30c a) ∧ (∃ a, (inst (all .eca1 2)).lattice = .eca1 a) ∧
      (∃ a, (inst (all .eca2 2)).lattice = .eca2 a) := ⟨rfl, ⟨_, rfl⟩, ⟨_, rfl⟩, ⟨_, rfl⟩, _, rfl⟩

theorem witness_SnapshotThenRestoreGivesTheSameLattice :
    ∃ t, (inst (all .r30c 5)).seeded = true ∧ exec .readState (inst (all .r30c 5)) = .next t ∧
      t.rsp = [] ++ 0x100000200 :: [5] ∧ (fresh .r30c []).variant = (inst (all .r30c 5)).variant :=
  ⟨_, rfl, rfl, by decide, rfl⟩

theorem witness_SeedBytesInstallsLittleEndianWords :
    ((List.replicate 36 (1 : Byte)).length = (fresh .r30p []).variant.seedLen ∧ (fresh .r30p []).variant ≠ .r30c ∧
      8 < (fresh .r30p []).variant.words) ∧
    ((List.replicate 8 (1 : Byte)).length = (fresh .r30c []).variant.seedLen ∧ (fresh .r30c []).variant = .r30c) := by decide

/-- The first byte and the last of 8. -/
theorem witness_ReferenceSeedExpansionIsThePcgStream : 0 < 8 ∧ 7 < 8 ∧
    (11634580027462260723 : Word64) =
      (fun x : Word64 => x * 6364136223846793005#64 + 11634580027462260723#64)^[0 / 4 + 1] 0 := by decide

theorem witness_ConstructionForgetsThePreviousState :
    constructs (inst (all .r30c 5)).variant (.seedU64 42) = true ∧
      constructs (inst (all .r30c 5)).variant (.loadState [7]) = true ∧
      (all .r30c 9).variant = (inst (all .r30c 5)).variant ∧ ∃ t, exec (.loadState [7]) (inst (all .r30c 5)) = .next t :=
  ⟨by decide, by decide, by decide, _, rfl⟩

/-- Two states with the same native bits and other staging bits. -/
theorem witness_PackedTransitionLeavesConsistentStaging :
    ∀ k : Fin 9, (Vector.replicate 9 0xC0000001#32)[k] &&& 0x3FFFFFFE#32 =
      (Vector.replicate 9 0#32)[k] &&& 0x3FFFFFFE#32 := by decide

/-- V-P-9. -/
theorem witness_AlignmentIsIdentityOnConsistentStates :
    ∀ k : Fin 9, (Vector.replicate 9 0x12345678#32)[k].getLsbD 30 =
        ((Vector.replicate 9 0x12345678#32)[(k.val + 1) % 9]'(Nat.mod_lt _ (by decide))).getLsbD 1 ∧
      (Vector.replicate 9 0x12345678#32)[k].getLsbD 0 =
        ((Vector.replicate 9 0x12345678#32)[(k.val + 8) % 9]'(Nat.mod_lt _ (by decide))).getLsbD 29 ∧
      (Vector.replicate 9 0x12345678#32)[k].getLsbD 31 = false := by decide

/-- The ends of the ranges that are the only hypotheses: bits of a 32-bit word (CompactTransitionIsRule30WithZeroShiftIn,
AlignmentRebuildsTheStagingBits with its clauses at 31, 30, 0 and between), cells of the ring
(PackedTransitionIsRule30OnTheTorus), lanes (EcaOneTransitionPerLane); and the clauses on `p` of
NextU32OnPackedGathers36Bits, NextU32OnCompactGathers29Bits and OutputBitsThatAreAlwaysZero. -/
theorem witness_ranges : (0 < 32 ∧ 1 < 32 ∧ 29 < 32 ∧ 30 < 32 ∧ 31 < 32) ∧ (0 < 261 ∧ 260 < 261) ∧ (0 < 64 ∧ 63 < 64) ∧
    (4 ≤ 4 ∧ 4 ≤ 31 ∧ 0 < 4 ∧ 3 < 4) ∧ (0 < 29 ∧ 28 < 29 ∧ 29 ≤ 29) ∧ (29 ≤ 31 ∧ 31 < 32) := by decide

/-- V-E-1 at word 79: its right neighbour is word 0. -/
theorem witness_EcaOneTransitionPerLane :
    (1 : Word64) = (Vector.ofFn fun k : Fin 80 => if k = 0 then (1 : Word64) else 0)[(79 + 1) % 80] := by decide

theorem witness_EcaTwoLanesNeverInteract :
    ∀ k : Fin 80, (Vector.replicate 80 (1 : Word64))[k].getLsbD 0 = (Vector.replicate 80 (3 : Word64))[k].getLsbD 0 := by
  decide

theorem witness_StepAdvancesByItsCount :
    (inst (all .r30c 5)).seeded = true ∧ (3 : Word32).toNat = (1 : Word32).toNat + (2 : Word32).toNat ∧
      ∃ t u w, exec (.step 1) (inst (all .r30c 5)) = .next t ∧ exec (.step 2) t = .next u ∧
        exec (.step 3) (inst (all .r30c 5)) = .next w := ⟨by decide, by decide, _, _, _, rfl, rfl, rfl⟩

/-- V-X-1, nine words 2 on R30P, T = 36: bit 0 of `0xFFFC_01FF` has the gathered bits 35 and 3, bit 8 is bit 27, bit 9 is bit 26
and 0, bit 18 is bit 17, bit 31 is bit 4. -/
theorem witness_RollingGatherClosedForm :
    (∀ i ∈ [3, 35], i < 4 * 9 ∧ (4 * 9 - 1 - i) % 32 = 0) ∧ gatherBit r30pStep 1 (Vector.replicate 9 2) 3 = true ∧
    (27 < 4 * 9 ∧ (4 * 9 - 1 - 27) % 32 = 8 ∧ gatherBit r30pStep 1 (Vector.replicate 9 2) 27 = true) ∧
    (26 < 4 * 9 ∧ (4 * 9 - 1 - 26) % 32 = 9 ∧ gatherBit r30pStep 1 (Vector.replicate 9 2) 26 = false) ∧
    (17 < 4 * 9 ∧ (4 * 9 - 1 - 17) % 32 = 18 ∧ gatherBit r30pStep 1 (Vector.replicate 9 2) 17 = true) ∧
    (4 < 4 * 9 ∧ (4 * 9 - 1 - 4) % 32 = 31 ∧ gatherBit r30pStep 1 (Vector.replicate 9 2) 4 = true) ∧
    (r30Native r30pStep 1 4 (Vector.replicate 9 2)).1 = 0xFFFC01FF := by decide +kernel

theorem witness_NextU32OnPackedGathers36Bits :
    (inst (all .r30p 2)).seeded = true ∧ ∃ a, (inst (all .r30p 2)).lattice = .r30p a := ⟨rfl, _, rfl⟩

theorem witness_NextU32OnCompactGathers29Bits :
    (inst (all .r30c 2)).seeded = true ∧ (inst (all .r30c 2)).build.roundC = 29 ∧
      ∃ a, (inst (all .r30c 2)).lattice = .r30c a := ⟨rfl, rfl, _, rfl⟩

theorem witness_OutputsOnEcaOneShiftThenOr :
    ∃ (a : Vector Word64 80) (m : Fin 4 → Word64), (inst (all .eca1 1)).seeded = true ∧ (inst (all .eca1 1)).lattice = .eca1 a ∧
      ∀ q, m q = a[(inst (all .eca1 1)).build.xIdx[q]] &&& (inst (all .eca1 1)).build.xMask :=
  ⟨_, _, rfl, rfl, fun _ => rfl⟩

theorem witness_OutputsOnEcaTwoOrThenShift :
    ∃ (a : Vector Word64 80) (m : Fin 4 → Word64), (inst (all .eca2 1)).seeded = true ∧ (inst (all .eca2 1)).lattice = .eca2 a ∧
      ∀ q, m q = a[(inst (all .eca2 1)).build.xIdx[q]] &&& (inst (all .eca2 1)).build.xMask :=
  ⟨_, _, rfl, rfl, fun _ => rfl⟩

theorem witness_NextU64IsTwoNextU32LowWordFirst :
    (inst (all .r30p 2)).seeded = true ∧ (inst (all .r30p 2)).variant = .r30p ∧ (inst (all .r30c 2)).variant = .r30c := by
  decide

/-- The bytes of a native word, W/8, on a 64-bit and on a 32-bit variant. -/
theorem witness_FillBytesStreamsNativeWords :
    (inst (all .eca1 1)).seeded = true ∧ 8 = (inst (all .eca1 1)).variant.width / 8 ∧
      4 = (inst (all .r30p 1)).variant.width / 8 := by decide

theorem witness_FillOfEightBytesIsOneNextU64 : (inst (all .eca2 1)).seeded = true := by decide

theorem witness_TransitionsTakenByOutputCommands :
    (inst (all .r30c 1)).seeded = true ∧ (inst (all .r30c 1)).build.roundC = 29 := by decide

theorem witness_OutputBitsThatAreAlwaysZero :
    (inst (all .eca2 1)).variant = .eca2 ∧ (inst (all .r30c 1)).variant = .r30c ∧ (inst (all .r30c 1)).seeded = true ∧
      (inst (all .r30c 1)).build.roundC = 29 := by decide

theorem witness_ZeroLatticeOutputsZeroForever :
    (inst (all .r30p 0)).seeded = true ∧
      (inst (all .r30p 0)).lattice = Lattice.tabulate (inst (all .r30p 0)).variant (fun _ => 0) := ⟨rfl, rfl⟩

theorem witness_CompactAttractorOutputsAllOnes :
    (inst (all .r30c 0xAAAAAAAA)).seeded = true ∧ (inst (all .r30c 0xAAAAAAAA)).build.markerC = 1 ∧
      (inst (all .r30c 0xAAAAAAAA)).build.roundC = 29 ∧
      (inst (all .r30c 0xAAAAAAAA)).lattice = .r30c #v[0xAAAAAAAA#32] ∧
      (inst (all .r30c 0xAAAAAAAB)).lattice = .r30c #v[0xAAAAAAAB#32] := by decide

end Sys2Proof.Tests
end

section
/-! PROOF. The one response of every command: what a whole response is made of, and that every command sends one (R66, R72). -/

namespace Sys2Proof.Machine

/-- R67: no status code is above 3. -/
theorem Status.code_le_three (st : Status) : st.code.toNat ≤ 3 := by
  cases st <;> decide

/-- A made header and a payload are a whole response where `INFO` counts the payload of an OK response, and any other response
has none. -/
theorem responseOk_responseHeader (st : Status) (opc : Byte) (info : Word32) (payload : List Beat) :
    responseOk (responseHeader st opc info :: payload) = true ↔
      (st = .ok → payload.length = info.toNat) ∧ (st ≠ .ok → payload = []) := by
  have hcode : st.code = 0#8 ↔ st = .ok := st.code_eq_zero
  simp [responseOk_cons, statusField, zeroField, infoField, st.code_le_three, hcode]

/-- From `s` to `t`, one response to the opcode `opc` went to the end of the response stream, its `INFO` the length of its
payload if it is OK, and without a payload if it is not. -/
def SendsResponse (s t : State) (opc : Byte) : Prop :=
  ∃ (st : Status) (info : Word32) (payload : List Beat), t.rsp = s.rsp ++ responseHeader st opc info :: payload ∧
    (st = .ok → payload.length = info.toNat) ∧ (st ≠ .ok → payload = [])

/-- What was sent is a whole response in the sense of the invariant. -/
theorem SendsResponse.responseOk {s t : State} {opc : Byte} (h : SendsResponse s t opc) :
    ∃ response, t.rsp = s.rsp ++ response ∧ Machine.responseOk response = true := by
  obtain ⟨st, info, payload, hrsp, hok, herr⟩ := h
  exact ⟨_, hrsp, (responseOk_responseHeader st opc info payload).2 ⟨hok, herr⟩⟩

theorem sendsResponse_raise {s t : State} {st : Status} {opc : Byte} {info : Word32}
    (h : s.raise st opc info = .next t) (hst : st ≠ .ok) : SendsResponse s t opc := by
  obtain rfl := (s.raise_eq_next st opc info t).1 h
  exact ⟨st, info, [], rfl, fun hok => absurd hok hst, fun _ => rfl⟩

/-- A payload that `INFO` can count is counted by it. -/
theorem sendsResponse_answer {s s' t : State} {opc : Byte} {payload : List Beat}
    (h : s'.answer opc payload = .next t) (hrsp : s'.rsp = s.rsp) (hlen : payload.length < 2 ^ 32) : SendsResponse s t opc := by
  obtain rfl := (s'.answer_eq_next opc payload t).1 h
  refine ⟨.ok, BitVec.ofNat 32 payload.length, payload, by rw [State.respond_rsp, hrsp], fun _ => ?_,
    fun hst => absurd rfl hst⟩
  rw [BitVec.toNat_ofNat, Nat.mod_eq_of_lt hlen]

theorem sendsResponse_ifSeeded {s s' t : State} {opc : Byte} {payload : List Beat}
    (h : s.ifSeeded opc (s'.answer opc payload) = .next t) (hrsp : s'.rsp = s.rsp) (hlen : payload.length < 2 ^ 32) :
    SendsResponse s t opc := by
  obtain ⟨-, hk⟩ | ⟨-, rfl⟩ := (s.ifSeeded_eq_next opc _ t).1 h
  · exact sendsResponse_answer hk hrsp hlen
  · exact sendsResponse_raise rfl (by decide)

/-- READ_STATE answers at most 80 beats (R122). -/
theorem wordBeats_length_lt (l : Lattice) : l.wordBeats.length < 2 ^ 32 := by
  rw [Lattice.wordBeats_length]
  cases l.variant <;> decide

/-- FILL_BYTES answers no more beats than the bytes it was asked for (R69, R107), and so no more than `INFO` can count. -/
theorem fillBuffer_beats_lt (b : Build) (nbytes : Word32) (l : Lattice) :
    (byteBeats (fillBuffer b nbytes.toNat l).1).length < 2 ^ 32 := by
  have hlen : (fillBuffer b nbytes.toNat l).1.length ≤ nbytes.toNat := List.length_take_le _ _
  have hlt := nbytes.isLt
  rw [byteBeats_length, ceilDiv]
  omega

/-- R66, R72: every command sends one response, framed by its own `INFO`. -/
theorem exec_sendsResponse (i : Instr) (s t : State) (h : exec i s = .next t) : SendsResponse s t i.opcode := by
  cases i with
  | loadState ws =>
    rw [exec, execLoadState] at h
    split at h
    · exact sendsResponse_answer h rfl (by simp)
    · exact sendsResponse_raise h (by decide)
  | readState => exact sendsResponse_ifSeeded h rfl (wordBeats_length_lt _)
  | nextU32 => exact sendsResponse_ifSeeded h rfl (by simp)
  | nextU64 => exact sendsResponse_ifSeeded h rfl (by simp)
  | fillBytes n => exact sendsResponse_ifSeeded h rfl (fillBuffer_beats_lt _ _ _)
  | seedU64 seed => exact sendsResponse_answer h rfl (by simp)
  | seedBytes bs => exact sendsResponse_answer h rfl (by simp)
  | step c => exact sendsResponse_ifSeeded h rfl (by simp)
  | reserved opc => exact sendsResponse_raise h (by decide)

/-- Settles O26: `exec_cases` writes a command's next state out, and what it writes is `S`, SEEDED and the end of the response
stream. -/
theorem commandsTouchOnlyTheEngineAndItsResponse : Obligations.CommandsTouchOnlyTheEngineAndItsResponse := by
  intro i s t h
  obtain ⟨l, x, st, info, payload, hl, hr⟩ := exec_cases i s
  obtain rfl := Host.Outcome.next.inj (hr.symm.trans h)
  exact ⟨⟨hl, rfl, rfl, rfl, rfl, rfl, rfl, rfl⟩, List.prefix_append _ _⟩

end Sys2Proof.Machine
end

section
/-! PROOF. The invariant `State.Inv`: it holds after reset, each of the four things a step can do keeps it, and so does
the host. -/

namespace Sys2Proof.Machine

/-- An idle sequencer holds no command. -/
theorem State.commandPartial_of_nil {s : State} (h : s.rx = []) : s.commandPartial = true :=
  s.commandPartial_iff.2 ⟨.noHeader, by rw [h, decode]⟩

/-- With no command half taken and nothing pending, only the variant and the parameters are left to check. -/
theorem State.inv_of_idle {v : Variant} {b : Build} {s : State} (hv : s.variant = v) (hb : s.build = b) (hrx : s.rx = [])
    (hrsp : s.rsp = []) : s.Inv v b :=
  ⟨hv, hb, s.commandPartial_of_nil hrx, .inr hrx, s.pendingIsRestOfAResponse_of_nil hrsp⟩

theorem State.inv_hardwareReset {v : Variant} {b : Build} {s : State} (h : s.Inv v b) : s.hardwareReset.Inv v b := by
  obtain ⟨hv, hb, -, -, -⟩ := h
  exact State.inv_of_idle (s.hardwareReset_variant.trans hv) hb rfl rfl

/-- A transferred beat moves from the head of what is pending to the end of `taken`, and they stay one response. -/
theorem State.inv_transferResponse {v : Variant} {b : Build} {s : State} (h : s.Inv v b) :
    s.transferResponse.Inv v b := by
  obtain ⟨beat, bs, hrsp, -, heq⟩ | ⟨-, heq⟩ := s.transferResponse_cases
  · obtain ⟨hv, hb, hpartial, hstreams, hpending⟩ := h
    have hrx : s.rx = [] := hstreams.resolve_left (by simp [hrsp])
    rw [heq]
    exact ⟨hv, hb, hpartial, .inr hrx, State.pendingIsRestOfAResponse_transfer hpending hrsp⟩
  · rwa [heq]

/-- A waiting engine holds what the decoder rejects. -/
theorem State.inv_awaitBeats {v : Variant} {b : Build} {s : State} (h : s.Inv v b) (hrsp : s.rsp = []) {e : DecodeError}
    (hd : decode s.variant (s.rx ++ s.req) = .error e) : s.awaitBeats.Inv v b := by
  obtain ⟨hv, hb, -, -, -⟩ := h
  exact ⟨hv, hb, s.awaitBeats.commandPartial_iff.2 ⟨e, hd⟩, .inl hrsp,
    State.pendingIsRestOfAResponse_of_nil hrsp⟩

/-- A command that is performed with its beats taken and nothing pending leaves its whole response pending. -/
theorem State.inv_of_exec {v : Variant} {b : Build} {i : Instr} {s t : State} (h : exec i s = .next t)
    (hv : s.variant = v) (hb : s.build = b) (hrx : s.rx = []) (hrsp : s.rsp = []) : t.Inv v b := by
  obtain ⟨⟨hvt, hbt, hrxt, -⟩, -⟩ := commandsTouchOnlyTheEngineAndItsResponse i s t h
  obtain ⟨response, ht, hwhole⟩ := (exec_sendsResponse i s t h).responseOk
  have hrx' : t.rx = [] := hrxt.trans hrx
  rw [hrsp, List.nil_append] at ht
  exact ⟨hvt.trans hv, hbt.trans hb, t.commandPartial_of_nil hrx', .inr hrx',
    State.pendingIsRestOfAResponse_of_whole (ht ▸ hwhole)⟩

/-- Settles O18: reset, the response stream, a performed command and a wait each keep the invariant. -/
theorem invariantIsKeptByEveryStep : Obligations.InvariantIsKeptByEveryStep := by
  intro v b s t hinv h
  obtain ⟨-, rfl⟩ | ⟨-, -, rfl⟩ | ⟨-, hrsp, i, rest, -, hexec⟩ | ⟨-, hrsp, ⟨e, hd⟩, rfl⟩ := step_cases s t h
  · exact State.inv_hardwareReset hinv
  · exact State.inv_transferResponse hinv
  · obtain ⟨hv, hb, -, -, -⟩ := hinv
    exact State.inv_of_exec hexec hv hb rfl hrsp
  · exact State.inv_awaitBeats hinv hrsp hd

/-- Settles O19: after reset the sequencer is idle and the response stream is empty. -/
theorem invariantHoldsAfterReset : Obligations.InvariantHoldsAfterReset := fun v b =>
  State.inv_of_idle (State.resetOf_variant v b) (State.resetOf_build v b) rfl rfl

/-- The invariant says nothing of the offered beats, of `rst` and of `rsp_ready`, which are all that the host drives. -/
theorem State.inv_hostAct {v : Variant} {b : Build} {s : State} (h : s.Inv v b) (a : HostAction) :
    (s.hostAct a).Inv v b := by
  cases a with
  | offer beats => exact h
  | setRst level => exact h
  | setRspReady level => exact h

/-- Settles O20, by induction on the run. -/
theorem invariantHoldsInEveryReachableState : Obligations.InvariantHoldsInEveryReachableState := by
  intro v b s hreach
  induction hreach with
  | afterReset => exact invariantHoldsAfterReset v b
  | host a _ ih => exact State.inv_hostAct ih a
  | step _ hstep ih => exact invariantIsKeptByEveryStep v b _ _ ih hstep

end Sys2Proof.Machine
end

section
/-! PROOF. The reference seed expansion, byte by byte (R127). -/

namespace Sys2Proof.Machine

/-- R11's rotate to the right is the library's. -/
theorem rotr_eq_rotateRight {w : Nat} (a : BitVec w) (n : Nat) : rotr a n = a.rotateRight n := by
  refine BitVec.eq_of_getLsbD_eq fun j hj => ?_
  have hn : n % w < w := Nat.mod_lt _ (by omega)
  rw [rotr, rotl_getLsbD _ _ _ hj, BitVec.getLsbD_rotateRight]
  generalize n % w = m at *
  have hback : (j + (w - (w - m) % w)) % w = (m + j) % w := by
    obtain rfl | hm := Nat.eq_zero_or_pos m
    · simp
    · rw [Nat.mod_eq_of_lt (by omega : w - m < w), show j + (w - (w - m)) = m + j by omega]
  rw [hback]
  by_cases h : j < w - m
  · rw [Nat.mod_eq_of_lt (by omega)]
    simp [h]
  · rw [show m + j = j - (w - m) + w by omega, Nat.add_mod_right, Nat.mod_eq_of_lt (by omega)]
    simp [h, hj]

/-- Each output of the generator gives four bytes, and the next four come from the state one update later. -/
theorem pcgBytes_getD (m : Nat) (seed : Word64) (k : Nat) (hk : k < 4 * m) :
    (pcgBytes m seed).getD k 0 = (pcgOutput (pcgNext^[k / 4 + 1] seed)).extractLsb' (8 * (k % 4)) 8 := by
  induction m generalizing seed k with
  | zero => omega
  | succ m ih =>
    rw [pcgBytes]
    by_cases h : k < 4
    · rw [List.getD_append _ _ _ _ (by simpa using h), leBytes_getD _ _ _ h, Nat.div_eq_of_lt h, Nat.mod_eq_of_lt h]
      rfl
    · rw [List.getD_append_right _ _ _ _ (by simpa using h), leBytes_length, ih _ _ (by omega),
        ← Function.iterate_succ_apply, show (k - 4) / 4 + 1 = k / 4 by omega, show (k - 4) % 4 = k % 4 by omega]

/-- Cutting the stream to `n` bytes keeps each byte before the cut. -/
theorem seedExpand_pcg32_getD (seed : Word64) (n k : Nat) (hk : k < n) :
    (seedExpand .pcg32 seed n).getD k 0 = (pcgOutput (pcgNext^[k / 4 + 1] seed)).extractLsb' (8 * (k % 4)) 8 := by
  rw [← pcgBytes_getD (ceilDiv n 4) seed k (by rw [ceilDiv]; omega)]
  simp [seedExpand, List.getD_eq_getElem?_getD, hk]

/-- Settles O36. -/
theorem referenceSeedExpansionIsThePcgStream : Obligations.ReferenceSeedExpansionIsThePcgStream := by
  intro seed n
  refine ⟨seedExpand_length _ seed n, ?_⟩
  rintro k st hk hst
  have hst' : st = pcgNext^[k / 4 + 1] seed := hst
  rw [seedExpand_pcg32_getD seed n k hk, ← hst', pcgOutput, rotr_eq_rotateRight]

end Sys2Proof.Machine
end

section
/-! PROOF. The four branches of a step, and what they and the commands do to SEEDED and to `S` (R27, R32, R143). -/

namespace Sys2Proof.Machine

/-! ### The branches of a step -/

theorem step_of_rst {s : State} (hrst : s.rst = true) : step s = .next s.hardwareReset := by
  simp [step, hrst]

theorem step_of_pending {s : State} (hrst : s.rst = false) (hrsp : s.rsp ≠ []) :
    step s = .next s.transferResponse := by
  simp [step, hrst, hrsp]

theorem step_of_command {s : State} {i : Instr} {rest : List Beat} (hrst : s.rst = false) (hrsp : s.rsp = [])
    (hd : decode s.variant (s.rx ++ s.req) = .ok (i, rest)) : step s = exec i { s with rx := [], req := rest } := by
  simp [step, hrst, hrsp, (s.fetch_eq_ok _ _).2 ⟨rest, hd, rfl⟩]

theorem step_of_partial {s : State} {e : DecodeError} (hrst : s.rst = false) (hrsp : s.rsp = [])
    (hd : decode s.variant (s.rx ++ s.req) = .error e) : step s = .next s.awaitBeats := by
  simp [step, hrst, hrsp, State.fetch, hd]

/-! ### SEEDED -/

/-- Settles O15. -/
theorem stateAfterReset : Obligations.StateAfterReset := fun v b =>
  ⟨rfl, rfl, rfl, State.resetOf_variant v b, State.resetOf_build v b⟩

@[simp] theorem State.transferResponse_seeded (s : State) : s.transferResponse.seeded = s.seeded := by
  obtain ⟨_, _, -, -, heq⟩ | ⟨-, heq⟩ := s.transferResponse_cases <;> rw [heq]

/-- A command that reads `S` behind the test of SEEDED does not write SEEDED, whichever way the test goes, and leaves the `S` it
made or the one it found (R27, R143). -/
theorem State.ifSeeded_engine {s t : State} {opc : Byte} {l : Lattice} {payload : List Beat}
    (h : s.ifSeeded opc ((s.withLattice l).answer opc payload) = .next t) :
    t.seeded = s.seeded ∧ (t.lattice = l ∨ t.lattice = s.lattice) := by
  obtain ⟨-, hk⟩ | ⟨-, rfl⟩ := (s.ifSeeded_eq_next opc _ t).1 h
  · obtain rfl := (State.answer_eq_next _ _ _ _).1 hk
    exact ⟨rfl, .inl rfl⟩
  · exact ⟨rfl, .inr rfl⟩

/-- R140, R146: an error status changes neither `S` nor SEEDED. -/
theorem State.raise_keeps {s t : State} {st : Status} {opc : Byte} {info : Word32}
    (h : s.raise st opc info = .next t) : t.lattice = s.lattice ∧ t.seeded = s.seeded := by
  obtain rfl := (s.raise_eq_next st opc info t).1 h
  exact ⟨rfl, rfl⟩

theorem State.construct_answer_seeded {s t : State} {l : Lattice} {opc : Byte} {payload : List Beat}
    (h : (s.construct l).answer opc payload = .next t) : t.seeded = true := by
  obtain rfl := (State.answer_eq_next _ _ _ _).1 h
  rfl

/-- R27: of the commands, the constructions set SEEDED and no other writes it. -/
theorem exec_seeded (i : Instr) (s t : State) (h : exec i s = .next t) :
    t.seeded = (s.seeded || constructs s.variant i) := by
  cases i with
  | loadState ws =>
    rw [exec, execLoadState] at h
    split at h
    case isTrue hlen => simp [State.construct_answer_seeded h, constructs, hlen]
    case isFalse hlen => simp [(State.raise_keeps h).2, constructs, hlen]
  | seedU64 seed => simp [State.construct_answer_seeded h, constructs]
  | seedBytes bs => simp [State.construct_answer_seeded h, constructs]
  | reserved opc => simp [(State.raise_keeps h).2, constructs]
  | readState => simp [(State.ifSeeded_engine (l := s.lattice) h).1, constructs]
  | nextU32 => simp [(State.ifSeeded_engine h).1, constructs]
  | nextU64 => simp [(State.ifSeeded_engine h).1, constructs]
  | fillBytes n => simp [(State.ifSeeded_engine h).1, constructs]
  | step c => simp [(State.ifSeeded_engine h).1, constructs]

/-- Settles O17: each clause is one branch of a step. -/
theorem seededIsWrittenByConstructionAndResetAlone : Obligations.SeededIsWrittenByConstructionAndResetAlone := by
  intro s t h
  refine ⟨fun hrst => ?_, fun hrst hrsp => ?_, fun e hrst hrsp hd => ?_, fun i rest hrst hrsp hd => ?_⟩
  · rw [step_of_rst hrst] at h
    obtain rfl := Host.Outcome.next.inj h
    exact s.hardwareReset_seeded
  · rw [step_of_pending hrst hrsp] at h
    obtain rfl := Host.Outcome.next.inj h
    exact s.transferResponse_seeded
  · rw [step_of_partial hrst hrsp hd] at h
    obtain rfl := Host.Outcome.next.inj h
    exact s.awaitBeats_seeded
  · rw [step_of_command hrst hrsp hd] at h
    exact exec_seeded i { s with rx := [], req := rest } t h

/-! ### The commands that write neither `S` nor SEEDED -/

/-- R143: before a construction, a command that reads `S` is refused before it reads it. -/
theorem exec_of_unseeded {i : Instr} {s : State} (hi : needsSeed i = true) (hs : s.seeded = false) :
    exec i s = s.raise .notSeeded i.opcode 0 := by
  cases i with
  | readState => exact if_neg (by simp [hs])
  | nextU32 => exact if_neg (by simp [hs])
  | nextU64 => exact if_neg (by simp [hs])
  | fillBytes n => exact if_neg (by simp [hs])
  | step c => exact if_neg (by simp [hs])
  | loadState ws => cases hi
  | seedU64 seed => cases hi
  | seedBytes bs => cases hi
  | reserved opc => cases hi

/-- R141: a LOAD_STATE of a wrong length is refused. -/
theorem exec_loadState_of_length_ne {ws : List Beat} {s : State} (hlen : ws.length ≠ s.variant.words) :
    exec (.loadState ws) s = s.raise .invalidLength opcLoadState (BitVec.ofNat 32 s.variant.words) :=
  if_neg hlen

/-- A command that reads `S` and would leave the `S` it found leaves the engine as it was, refused or not (R32, R143). -/
theorem State.ifSeeded_answer_keeps {s t : State} {opc : Byte} {payload : List Beat}
    (h : s.ifSeeded opc (s.answer opc payload) = .next t) : t.lattice = s.lattice ∧ t.seeded = s.seeded := by
  obtain ⟨hseeded, hlattice⟩ := State.ifSeeded_engine (l := s.lattice) h
  exact ⟨or_self_iff.1 hlattice, hseeded⟩

/-- Settles O27: each of these commands is refused, or answers with the `S` it read still in place. FILL_BYTES 0 takes no
native word and STEP 0 no transition. -/
theorem commandsThatLeaveTheLattice : Obligations.CommandsThatLeaveTheLattice := by
  rintro i s t h (rfl | rfl | rfl | ⟨opc, rfl⟩ | ⟨ws, rfl, hlen⟩ | ⟨hi, hs⟩)
  · exact State.ifSeeded_answer_keeps h
  · exact State.ifSeeded_answer_keeps h
  · exact State.ifSeeded_answer_keeps h
  · exact State.raise_keeps h
  · exact State.raise_keeps ((exec_loadState_of_length_ne hlen).symm.trans h)
  · exact State.raise_keeps ((exec_of_unseeded hi hs).symm.trans h)

end Sys2Proof.Machine
end

section
/-! PROOF. An `S` that no construction has written cannot be seen (R36, R162): two runs that differ in it alone are related by
`State.Unseen`, which every step keeps. -/

namespace Sys2Proof.Machine

/-- `l` can stand in for the `S` of `s` unseen: it is of the same variant, and it is that `S` if a construction wrote it. -/
def State.Unseen (s : State) (l : Lattice) : Prop :=
  l.variant = s.variant ∧ (s.seeded = true → l = s.lattice)

/-- Two results that differ in an unseen `S` alone. -/
def DifferUnseen (r r' : Result) : Prop :=
  ∃ t l, t.Unseen l ∧ r = .next t ∧ r' = .next (t.withLattice l)

theorem State.unseen_self (s : State) : s.Unseen s.lattice := ⟨rfl, fun _ => rfl⟩

theorem DifferUnseen.of_next {t : State} {l : Lattice} (h : t.Unseen l) :
    DifferUnseen (.next t) (.next (t.withLattice l)) := ⟨t, l, h, rfl, rfl⟩

/-- Where a command answers the same on both sides, nothing differs. -/
theorem exec_differUnseen_of_eq {i : Instr} {s u : State} (h : exec i u = exec i s) :
    DifferUnseen (exec i s) (exec i u) := by
  obtain ⟨l, x, st, info, payload, -, heq⟩ := exec_cases i s
  rw [h, heq]
  exact .of_next (State.unseen_self _)

/-- R120: a construction writes all of `S`, from its payload, the variant and the parameters. -/
theorem exec_withLattice_of_constructs {i : Instr} {s : State} {l : Lattice} (hv : l.variant = s.variant)
    (hc : constructs s.variant i = true) : exec i (s.withLattice l) = exec i s := by
  have hconstruct : ∀ m, (s.withLattice l).construct m = s.construct m := fun _ => rfl
  cases i with
  | loadState ws =>
    have hlen : ws.length = s.variant.words := by simpa [constructs] using hc
    simp only [exec, execLoadState, State.withLattice_variant, hv, hlen, if_true, hconstruct]
  | seedU64 seed =>
    simp only [exec, execSeedU64, State.withLattice_variant, State.withLattice_build, hv, hconstruct]
  | seedBytes bs => simp only [exec, execSeedBytes, State.withLattice_variant, hv, hconstruct]
  | readState => cases hc
  | nextU32 => cases hc
  | nextU64 => cases hc
  | fillBytes n => cases hc
  | step c => cases hc
  | reserved opc => cases hc

/-- An error response shows nothing of `S`. -/
theorem raise_differUnseen {s : State} {l : Lattice} (h : s.Unseen l) (st : Status) (opc : Byte) (info : Word32) :
    DifferUnseen (s.raise st opc info) ((s.withLattice l).raise st opc info) :=
  .of_next (t := s.respond st opc info []) h

/-- No command shows an unseen `S`: before a construction it constructs or it is refused. -/
theorem exec_differUnseen (i : Instr) {s : State} {l : Lattice} (h : s.Unseen l) :
    DifferUnseen (exec i s) (exec i (s.withLattice l)) := by
  have hv : (s.withLattice l).variant = s.variant := h.1
  cases hs : s.seeded with
  | true =>
    rw [h.2 hs, State.withLattice_self]
    exact exec_differUnseen_of_eq rfl
  | false =>
    cases hc : constructs s.variant i with
    | true => exact exec_differUnseen_of_eq (exec_withLattice_of_constructs hv hc)
    | false =>
      cases hi : needsSeed i with
      | true =>
        rw [exec_of_unseeded hi hs, exec_of_unseeded (s := s.withLattice l) hi hs]
        exact raise_differUnseen h _ _ _
      | false =>
        cases i with
        | loadState ws =>
          have hlen : ws.length ≠ s.variant.words := by simpa [constructs] using hc
          rw [exec_loadState_of_length_ne hlen, exec_loadState_of_length_ne (s := s.withLattice l) (hv.symm ▸ hlen), hv]
          exact raise_differUnseen h _ _ _
        | reserved opc => exact raise_differUnseen h _ _ _
        | seedU64 seed => cases hc
        | seedBytes bs => cases hc
        | readState => cases hi
        | nextU32 => cases hi
        | nextU64 => cases hi
        | fillBytes n => cases hi
        | step c => cases hi

@[simp] theorem State.transferResponse_lattice (s : State) : s.transferResponse.lattice = s.lattice := by
  obtain ⟨_, _, -, -, heq⟩ | ⟨-, heq⟩ := s.transferResponse_cases <;> rw [heq]

/-- The response stream moves without a look at `S`. -/
theorem State.transferResponse_withLattice (s : State) (l : Lattice) :
    (s.withLattice l).transferResponse = s.transferResponse.withLattice l := by
  rcases s with ⟨_, _, _, _, _ | ⟨b, bs⟩, _, _, _, _ | _, _⟩ <;> rfl

/-- What an unseen `S` is depends on the `S` and the SEEDED of the state alone. -/
theorem State.Unseen.congr {s t : State} {l : Lattice} (h : s.Unseen l) (hl : t.lattice = s.lattice)
    (hs : t.seeded = s.seeded) : t.Unseen l := by
  obtain ⟨hv, hseen⟩ := h
  refine ⟨hv.trans ?_, fun ht => (hseen (hs.symm.trans ht)).trans hl.symm⟩
  rw [State.variant, State.variant, hl]

/-- No step shows an unseen `S`. -/
theorem step_differUnseen {s : State} {l : Lattice} (h : s.Unseen l) :
    DifferUnseen (step s) (step (s.withLattice l)) := by
  have hv : (s.withLattice l).variant = s.variant := h.1
  cases hrst : s.rst with
  | true =>
    have heq : (s.withLattice l).hardwareReset = s.hardwareReset := by simp only [State.hardwareReset, hv]; rfl
    rw [step_of_rst hrst, step_of_rst (s := s.withLattice l) hrst, heq]
    exact .of_next (State.unseen_self _)
  | false =>
    by_cases hrsp : s.rsp = []
    · cases hd : decode s.variant (s.rx ++ s.req) with
      | ok p =>
        obtain ⟨i, rest⟩ := p
        rw [step_of_command hrst hrsp hd, step_of_command (s := s.withLattice l) hrst hrsp (hv.symm ▸ hd)]
        exact exec_differUnseen i (s := { s with rx := [], req := rest }) h
      | error e =>
        rw [step_of_partial hrst hrsp hd, step_of_partial (s := s.withLattice l) hrst hrsp (hv.symm ▸ hd)]
        exact .of_next (t := s.awaitBeats) h
    · rw [step_of_pending hrst hrsp, step_of_pending (s := s.withLattice l) hrst hrsp, State.transferResponse_withLattice]
      exact .of_next (h.congr s.transferResponse_lattice s.transferResponse_seeded)

/-- A run takes its first step first. -/
theorem run_succ_of_step {s t : State} (n : Nat) (h : step s = .next t) :
    Sys2Proof.core.run (n + 1) s = Sys2Proof.core.run n t := by
  have hcore : Sys2Proof.core.step s = .next t := h
  simp only [Host.Core.run, hcore]

/-- No run shows an unseen `S`. -/
theorem run_differUnseen (n : Nat) {s : State} {l : Lattice} (h : s.Unseen l) :
    DifferUnseen (Sys2Proof.core.run n s) (Sys2Proof.core.run n (s.withLattice l)) := by
  induction n generalizing s l with
  | zero => exact .of_next h
  | succ n ih =>
    obtain ⟨t, l', ht, hs, hs'⟩ := step_differUnseen h
    rw [run_succ_of_step n hs, run_succ_of_step n hs']
    exact ih ht

/-- Settles O22: where nothing is seeded any `S` of the variant is unseen, and every step keeps it so. -/
theorem latticeBeforeSeedingIsUnobservable : Obligations.LatticeBeforeSeedingIsUnobservable := by
  intro n s t l hs hv hrun
  have hunseen : s.Unseen l := ⟨hv, fun hseeded => by simp [hs] at hseeded⟩
  obtain ⟨t', l', ⟨hv', hseen⟩, ht, ht'⟩ := run_differUnseen n hunseen
  obtain rfl := Host.Outcome.next.inj (ht.symm.trans hrun)
  exact ⟨l', hv', ht', hseen⟩

end Sys2Proof.Machine
end

section
/-! PROOF. READ_STATE of a seeded engine (R122). -/

namespace Sys2Proof.Machine

/-- The OK response header of READ_STATE, on each variant (R66). -/
theorem responseHeader_readState (v : Variant) :
    responseHeader .ok opcReadState (BitVec.ofNat 32 v.words) = (BitVec.ofNat 64 v.words <<< 32) ||| 0x0200#64 := by
  cases v <;> decide

theorem exec_readState_of_seeded {s : State} (hs : s.seeded = true) :
    exec .readState s = .next (s.respond .ok opcReadState (BitVec.ofNat 32 s.variant.words) s.lattice.wordBeats) := by
  rw [exec, execReadState, State.ifSeeded, if_pos hs, State.answer, Lattice.wordBeats_length]
  rfl

/-- Settles O32: the payload is `wordBeats`, which lists the words in index order. -/
theorem readStateReturnsEveryWordAsStored : Obligations.ReadStateReturnsEveryWordAsStored := by
  intro s hs
  refine ⟨s.lattice.wordBeats, ?_, s.lattice.wordBeats_length, fun a k ha => ?_, fun a k ha => ?_, fun a k ha => ?_⟩
  · rw [exec_readState_of_seeded hs, State.respond, responseHeader_readState]
  · simp [ha, Lattice.wordBeats]
  · obtain rfl : k = 0 := Subsingleton.elim _ _
    simp [ha, Lattice.wordBeats]
  · obtain ha | ha := ha <;> simp [ha, Lattice.wordBeats]

end Sys2Proof.Machine
end

section
/-! PROOF. The packed transition (R23, R24, R83 to R86): the aligned words as windows on the 261-cell ring. -/

namespace Sys2Proof.Machine

/-! ### The ring of nine words -/

theorem at9_val (s : Vector Word32 9) (k : Fin 9) : at9 s k.val = s[k] := by
  simp [at9, Nat.mod_eq_of_lt k.isLt]

theorem at9_ofFn (f : Fin 9 → Word32) (i : Nat) : at9 (Vector.ofFn f) i = f ⟨i % 9, Nat.mod_lt _ (by decide)⟩ := by
  simp [at9]

@[simp] theorem at9_mod_add (s : Vector Word32 9) (i d : Nat) : at9 s (i % 9 + d) = at9 s (i + d) := by
  simp [at9]

/-- R30P arrays whose words agree bit by bit are equal. -/
theorem eq_of_at9_getLsbD {s t : Vector Word32 9} (h : ∀ i j, j < 32 → (at9 s i).getLsbD j = (at9 t i).getLsbD j) :
    s = t := by
  ext1 k hk
  have hword := BitVec.eq_of_getLsbD_eq (h k)
  rwa [at9_val s ⟨k, hk⟩, at9_val t ⟨k, hk⟩] at hword

/-! ### Alignment -/

/-- R83, bit by bit, the words counted round the ring. -/
theorem at9_r30pAlign_getLsbD (s : Vector Word32 9) (i j : Nat) (hj : j < 32) :
    (at9 (r30pAlign s) i).getLsbD j =
      if j = 31 then false
      else if j = 30 then (at9 s (i + 1)).getLsbD 1
      else if j = 0 then (at9 s (i + 8)).getLsbD 29
      else (at9 s i).getLsbD j := by
  have hself : s[(⟨i % 9, Nat.mod_lt _ (by decide)⟩ : Fin 9)] = at9 s i := rfl
  rw [r30pAlign, at9_ofFn]
  simp only [hself, at9_mod_add, BitVec.getLsbD_or, BitVec.getLsbD_and, BitVec.getLsbD_shiftLeft, bitAt_getLsbD,
    nativeMask_getLsbD, hj, decide_true, Bool.true_and]
  split_ifs with h31 h30 h0
  · simp [h31]
  · simp [h30]
  · simp [h0]
  · have hlow : 1 ≤ j ∧ j ≤ 29 := by omega
    simp [hlow, h0, show j < 30 by omega]

/-- Alignment keeps the native bits (R83). -/
theorem at9_r30pAlign_native (s : Vector Word32 9) (i : Nat) {j : Nat} (h1 : 1 ≤ j) (h29 : j ≤ 29) :
    (at9 (r30pAlign s) i).getLsbD j = (at9 s i).getLsbD j := by
  rw [at9_r30pAlign_getLsbD s i j (by omega), if_neg (by omega), if_neg (by omega), if_neg (by omega)]

/-- R24: the staging bits of every word are its neighbours' edge cells, and bit 31 is 0. -/
def StagingConsistent (s : Vector Word32 9) : Prop :=
  ∀ i, (at9 s i).getLsbD 30 = (at9 s (i + 1)).getLsbD 1 ∧ (at9 s i).getLsbD 0 = (at9 s (i + 8)).getLsbD 29 ∧
    (at9 s i).getLsbD 31 = false

theorem stagingConsistent_r30pAlign (s : Vector Word32 9) : StagingConsistent (r30pAlign s) := fun i =>
  ⟨by rw [at9_r30pAlign_getLsbD s i 30 (by decide), at9_r30pAlign_native s (i + 1) (by decide) (by decide)]; rfl,
    by rw [at9_r30pAlign_getLsbD s i 0 (by decide), at9_r30pAlign_native s (i + 8) (by decide) (by decide)]; rfl,
    at9_r30pAlign_getLsbD s i 31 (by decide)⟩

theorem StagingConsistent.r30pAlign_eq {s : Vector Word32 9} (h : StagingConsistent s) : r30pAlign s = s := by
  refine eq_of_at9_getLsbD fun i j hj => ?_
  obtain ⟨h30, h0, h31⟩ := h i
  rw [at9_r30pAlign_getLsbD s i j hj]
  split_ifs with hj31 hj30 hj0
  · rw [hj31, h31]
  · rw [hj30, h30]
  · rw [hj0, h0]
  · rfl

/-- Alignment reads native bits alone (R24, R83). -/
theorem r30pAlign_congr {s t : Vector Word32 9}
    (h : ∀ i j, 1 ≤ j → j ≤ 29 → (at9 s i).getLsbD j = (at9 t i).getLsbD j) : r30pAlign s = r30pAlign t := by
  refine eq_of_at9_getLsbD fun i j hj => ?_
  rw [at9_r30pAlign_getLsbD s i j hj, at9_r30pAlign_getLsbD t i j hj]
  split_ifs with hj31 hj30 hj0
  · rfl
  · exact h (i + 1) 1 (by decide) (by decide)
  · exact h (i + 8) 29 (by decide) (by decide)
  · exact h i j (by omega) (by omega)

/-- Words equal under the native mask agree in their native bits. -/
theorem getLsbD_eq_of_and_nativeMask {x y : Word32} (h : x &&& nativeMask = y &&& nativeMask) {j : Nat} (h1 : 1 ≤ j)
    (h29 : j ≤ 29) : x.getLsbD j = y.getLsbD j := by
  have hbit := congrArg (BitVec.getLsbD · j) h
  simpa [nativeMask_getLsbD, h1, h29] using hbit

/-- Settles O41. -/
theorem alignmentIsIdentityOnConsistentStates : Obligations.AlignmentIsIdentityOnConsistentStates := by
  refine ⟨fun s => (stagingConsistent_r30pAlign s).r30pAlign_eq, fun s h => StagingConsistent.r30pAlign_eq fun i => ?_⟩
  have hi := h ⟨i % 9, Nat.mod_lt _ (by decide)⟩
  simpa [at9] using hi

/-- Settles O40: a transition ends with an alignment, and begins with one, which reads native bits alone. -/
theorem packedTransitionLeavesConsistentStaging : Obligations.PackedTransitionLeavesConsistentStaging := by
  refine ⟨fun s k => ?_, fun s s' h => ?_⟩
  · rw [← at9_val]
    exact stagingConsistent_r30pAlign _ k.val
  · have halign : r30pAlign s = r30pAlign s' := r30pAlign_congr fun i j h1 h29 =>
      getLsbD_eq_of_and_nativeMask (h ⟨i % 9, Nat.mod_lt _ (by decide)⟩) h1 h29
    rw [r30pStep, halign, ← r30pStep]

/-! ### The ring of 261 cells -/

/-- Native bit `j` of word `i`, seen from the ring (R23). -/
theorem cell_of_word (s : Vector Word32 9) {i j : Nat} (h1 : 1 ≤ j) (h29 : j ≤ 29) :
    cell s (29 * i + (j - 1)) = (at9 s i).getLsbD j := by
  rw [cell, show (29 * i + (j - 1)) / 29 = i by omega, show (29 * i + (j - 1)) % 29 + 1 = j by omega]

theorem cell_mod (s : Vector Word32 9) (c : Nat) : cell s (c % 261) = cell s c := by
  have hword : at9 s (c % 261 / 29) = at9 s (c / 29) := by
    simp [at9, show c % 261 / 29 % 9 = c / 29 % 9 by omega]
  rw [cell, cell, hword, show c % 261 % 29 = c % 29 by omega]

/-- An aligned word is a window of 31 cells on the ring, from the cell before its first native one to the cell after its last:
the staging bits are the neighbours' cells (R24, R83, R86). -/
theorem at9_r30pAlign_eq_cell (s : Vector Word32 9) (i j : Nat) (hj : j ≤ 30) :
    (at9 (r30pAlign s) i).getLsbD j = cell s ((29 * i + j + 260) % 261) := by
  rw [cell_mod, at9_r30pAlign_getLsbD s i j (by omega), if_neg (by omega)]
  have hround : ∀ k, cell s (k + 261) = cell s k := fun k => by rw [← cell_mod, Nat.add_mod_right, cell_mod]
  split_ifs with h30 h0
  · rw [← cell_of_word s (by decide) (by decide), ← hround, h30]
    exact congrArg (cell s) (by omega)
  · rw [← cell_of_word s (by decide) (by decide), h0]
    exact congrArg (cell s) (by omega)
  · rw [← cell_of_word s (i := i) (by omega : 1 ≤ j) (by omega), ← hround]
    exact congrArg (cell s) (by omega)

/-- R85: a native bit after the transition is Rule 30 on the aligned word. -/
theorem at9_r30pStep_native (s : Vector Word32 9) (i : Nat) {j : Nat} (h1 : 1 ≤ j) (h29 : j ≤ 29) :
    (at9 (r30pStep s) i).getLsbD j =
      Bool.xor ((at9 (r30pAlign s) i).getLsbD (j + 1))
        ((at9 (r30pAlign s) i).getLsbD j || (at9 (r30pAlign s) i).getLsbD (j - 1)) := by
  have hself : (r30pAlign s)[(⟨i % 9, Nat.mod_lt _ (by decide)⟩ : Fin 9)] = at9 (r30pAlign s) i := rfl
  rw [r30pStep, at9_r30pAlign_native _ i h1 h29, r30pCells, at9_ofFn, hself, BitVec.getLsbD_and,
    rule30w_getLsbD _ j (by omega), nativeMask_getLsbD]
  simp [h1, h29, show 0 < j by omega]

/-- Settles O42: a cell and its two neighbours on the ring are three adjacent bits of one aligned word. -/
theorem packedTransitionIsRule30OnTheTorus : Obligations.PackedTransitionIsRule30OnTheTorus := by
  intro s c hc
  rw [cell, at9_r30pStep_native s (c / 29) (by omega) (by omega), at9_r30pAlign_eq_cell _ _ _ (by omega),
    at9_r30pAlign_eq_cell _ _ _ (by omega), at9_r30pAlign_eq_cell _ _ _ (by omega)]
  rw [show (29 * (c / 29) + (c % 29 + 1 + 1) + 260) % 261 = (c + 1) % 261 by omega,
    show (29 * (c / 29) + (c % 29 + 1) + 260) % 261 = c by omega,
    show (29 * (c / 29) + (c % 29 + 1 - 1) + 260) % 261 = (c + 260) % 261 by omega]

end Sys2Proof.Machine
end

section
/-! PROOF. The two streams of a run (R52, R61, R62, R165): a response drains in order, and the commands of a request stream are
performed in order, each response whole before the next command. -/

namespace Sys2Proof.Machine

/-! ### A response drains -/

/-- A run of at least one step: its first step, and the run of the others from there. -/
theorem run_succ_eq_next (n : Nat) (s t : State) :
    Sys2Proof.core.run (n + 1) s = .next t ↔ ∃ u, step s = .next u ∧ Sys2Proof.core.run n u = .next t := by
  have hcore : Sys2Proof.core.step s = step s := rfl
  cases hstep : step s with
  | next u => rw [run_succ_of_step n hstep]; simp
  | fault r => simp [Host.Core.run, hcore, hstep]
  | refused r => simp [Host.Core.run, hcore, hstep]

/-- Runs compose: a run of `m` steps, then one of `n`. -/
theorem run_add_of_run {m : Nat} {s u : State} (n : Nat) (h : Sys2Proof.core.run m s = .next u) :
    Sys2Proof.core.run (m + n) s = Sys2Proof.core.run n u := by
  induction m generalizing s with
  | zero =>
    obtain rfl : s = u := Host.Outcome.next.inj h
    rw [Nat.zero_add]
  | succ m ih =>
    obtain ⟨v, hstep, hrun⟩ := (run_succ_eq_next m s u).1 h
    rw [Nat.succ_add, run_succ_of_step (m + n) hstep, ih hrun]

/-- With nothing pending there is nothing to transfer. -/
theorem State.drained_of_nil {s : State} (h : s.rsp = []) : s.drained = s := by
  obtain ⟨⟩ := s
  obtain rfl := h
  simp [State.drained]

/-- R61: with the host ready, one step transfers the first pending beat. -/
theorem step_of_pending_ready {s : State} {b : Beat} {bs : List Beat} (hrst : s.rst = false) (hready : s.rspReady = true)
    (hrsp : s.rsp = b :: bs) : step s = .next { s with rsp := bs, taken := s.taken ++ [b] } := by
  rw [step_of_pending hrst (by simp [hrsp])]
  simp [State.transferResponse, hrsp, hready]

/-- A ready host takes all that is pending, one beat a step. -/
theorem run_drains {s : State} (hrst : s.rst = false) (hready : s.rspReady = true) :
    Sys2Proof.core.run s.rsp.length s = .next s.drained := by
  generalize hrsp : s.rsp = beats
  induction beats generalizing s with
  | nil => simp [State.drained_of_nil hrsp, Host.Core.run]
  | cons b bs ih =>
    rw [List.length_cons, run_succ_of_step _ (step_of_pending_ready hrst hready hrsp)]
    simpa [State.drained, hrsp] using ih (s := { s with rsp := bs, taken := s.taken ++ [b] }) hrst hready rfl

/-- Settles O12. -/
theorem responseDrainsInOrder : Obligations.ResponseDrainsInOrder := fun _ hrst hready => run_drains hrst hready

/-! ### What is encoded is decoded -/

/-- The header and the payload of a well-formed command select the case of R75 that the command is. -/
theorem assemble_encoded {v : Variant} {i : Instr} (hw : i.wellFormed v = true) :
    assemble v (makeHeader i.opcode i.arg) i.payload = i := by
  cases i with
  | loadState ws => simp [assemble, Instr.opcode, Instr.payload]
  | readState => simp [assemble, Instr.opcode, opcReadState, opcLoadState]
  | nextU32 => simp [assemble, Instr.opcode, opcNextU32, opcReadState, opcLoadState]
  | nextU64 => simp [assemble, Instr.opcode, opcNextU64, opcNextU32, opcReadState, opcLoadState]
  | fillBytes n =>
    simp [assemble, Instr.opcode, Instr.arg, opcFillBytes, opcNextU64, opcNextU32, opcReadState, opcLoadState]
  | seedU64 seed =>
    simp [assemble, Instr.opcode, Instr.payload, opcSeedU64, opcFillBytes, opcNextU64, opcNextU32, opcReadState,
      opcLoadState]
  | seedBytes bs =>
    have hlen : bs.length = v.seedLen := by simpa [Instr.wellFormed] using hw
    simp [assemble, Instr.opcode, Instr.payload, opcSeedBytes, opcSeedU64, opcFillBytes, opcNextU64, opcNextU32,
      opcReadState, opcLoadState, ← hlen, byteBeats_roundtrip]
  | step c =>
    simp [assemble, Instr.opcode, Instr.arg, opcStep, opcSeedBytes, opcSeedU64, opcFillBytes, opcNextU64, opcNextU32,
      opcReadState, opcLoadState]
  | reserved opc =>
    have hopc : reservedOpc opc = true := hw
    have hne : ∀ o : Byte, reservedOpc o = false → opc ≠ o := by
      rintro o ho rfl
      simp [hopc] at ho
    simp [assemble, Instr.opcode, hne opcLoadState rfl, hne opcReadState rfl, hne opcNextU32 rfl, hne opcNextU64 rfl,
      hne opcFillBytes rfl, hne opcSeedU64 rfl, hne opcSeedBytes rfl, hne opcStep rfl]

/-- The header of a well-formed command announces its payload, whichever command it is (R71). -/
theorem payloadBeats_encoded {v : Variant} {i : Instr} (hw : i.wellFormed v = true) :
    payloadBeats v (makeHeader i.opcode i.arg) = i.payload.length := by
  have hframing : Laws.Framing.Statement i := by
    cases i with
    | loadState ws => exact Laws.Framing.loadState ws
    | readState => exact Laws.Framing.readState
    | nextU32 => exact Laws.Framing.nextU32
    | nextU64 => exact Laws.Framing.nextU64
    | fillBytes n => exact Laws.Framing.fillBytes n
    | seedU64 seed => exact Laws.Framing.seedU64 seed
    | seedBytes bs => exact Laws.Framing.seedBytes bs
    | step c => exact Laws.Framing.step c
    | reserved opc => exact Laws.Framing.reserved opc
  exact (hframing v hw).1

/-- A stream that begins with the encoding of a well-formed command gives that command, and what follows it is left. -/
theorem decode_encode_append {v : Variant} {i : Instr} (rest : List Beat) (hw : i.wellFormed v = true) :
    decode v (encode i ++ rest) = .ok (i, rest) :=
  (decode_eq_ok v _ i rest).2
    ⟨makeHeader i.opcode i.arg, i.payload, rfl, (payloadBeats_encoded hw).symm, (assemble_encoded hw).symm⟩

/-! ### A command does not look at the request stream -/

/-- `s` with other beats on offer. -/
def State.withReq (s : State) (beats : List Beat) : State := { s with req := beats }

theorem raise_withReq {s t : State} {st : Status} {opc : Byte} {info : Word32} (beats : List Beat)
    (h : s.raise st opc info = .next t) : (s.withReq beats).raise st opc info = .next (t.withReq beats) := by
  obtain rfl := (s.raise_eq_next st opc info t).1 h
  rfl

theorem answer_withReq {s t : State} {opc : Byte} {payload : List Beat} (beats : List Beat)
    (h : s.answer opc payload = .next t) : (s.withReq beats).answer opc payload = .next (t.withReq beats) := by
  obtain rfl := (s.answer_eq_next opc payload t).1 h
  rfl

theorem ifSeeded_answer_withReq {s s' t : State} {opc : Byte} {payload : List Beat} (beats : List Beat)
    (h : s.ifSeeded opc (s'.answer opc payload) = .next t) :
    (s.withReq beats).ifSeeded opc ((s'.withReq beats).answer opc payload) = .next (t.withReq beats) := by
  refine (State.ifSeeded_eq_next _ _ _ _).2 ?_
  obtain ⟨hs, hk⟩ | ⟨hs, rfl⟩ := (s.ifSeeded_eq_next opc _ t).1 h
  · exact .inl ⟨hs, answer_withReq beats hk⟩
  · exact .inr ⟨hs, rfl⟩

/-- R62: a command is performed alike whatever is offered behind it, and leaves that on offer. -/
theorem exec_withReq {i : Instr} {s t : State} (beats : List Beat) (h : exec i s = .next t) :
    exec i (s.withReq beats) = .next (t.withReq beats) := by
  cases i with
  | loadState ws =>
    by_cases hlen : ws.length = s.variant.words
    · rw [exec, execLoadState, if_pos hlen] at h
      exact (if_pos hlen).trans (answer_withReq beats h)
    · rw [exec, execLoadState, if_neg hlen] at h
      exact (if_neg hlen).trans (raise_withReq beats h)
  | readState => exact ifSeeded_answer_withReq beats h
  | nextU32 => exact ifSeeded_answer_withReq beats h
  | nextU64 => exact ifSeeded_answer_withReq beats h
  | fillBytes n => exact ifSeeded_answer_withReq beats h
  | seedU64 seed => exact answer_withReq beats h
  | seedBytes bs => exact answer_withReq beats h
  | step c => exact ifSeeded_answer_withReq beats h
  | reserved opc => exact raise_withReq beats h

/-! ### A stream of commands -/

/-- The first command of an idle engine's request stream is performed in one step, and its response then drains. -/
theorem run_first_command {i : Instr} {s t : State} {rest : List Beat} (hw : i.wellFormed s.variant = true)
    (hrst : s.rst = false) (hready : s.rspReady = true) (hrx : s.rx = []) (hrsp : s.rsp = [])
    (hreq : s.req = encode i ++ rest) (hexec : exec i (s.withReq []) = .next t) :
    Sys2Proof.core.run ((t.withReq rest).rsp.length + 1) s = .next (t.withReq rest).drained := by
  obtain ⟨⟨-, -, -, -, hrst', -, hready', -⟩, -⟩ := commandsTouchOnlyTheEngineAndItsResponse i _ t hexec
  have hdecode : decode s.variant (s.rx ++ s.req) = .ok (i, rest) := by
    rw [hrx, List.nil_append, hreq, decode_encode_append rest hw]
  have hstate : { s with rx := [], req := rest } = (s.withReq []).withReq rest := by simp [State.withReq, hrx]
  have hstep : step s = .next (t.withReq rest) := by
    rw [step_of_command hrst hrsp hdecode, hstate]
    exact exec_withReq rest hexec
  rw [run_succ_of_step _ hstep]
  exact run_drains (hrst'.trans hrst) (hready'.trans hready)

/-- Settles O21, by induction on the commands: each takes one step to be performed and one for each beat of its response. -/
theorem streamOfCommandsIsPerformedInOrder : Obligations.StreamOfCommandsIsPerformedInOrder := by
  intro is
  induction is with
  | nil =>
    intro s _ _ _ _ _ hreq
    refine ⟨0, s, congrArg some ?_, rfl⟩
    exact congrArg s.withReq hreq.symm
  | cons i is ih =>
    intro s hw hrst hready hrx hrsp hreq
    obtain ⟨hwi, hwis⟩ := List.forall_mem_cons.1 hw
    obtain ⟨l, x, st, info, payload, -, hexec⟩ := exec_cases i (s.withReq [])
    set t := State.respond { s.withReq [] with lattice := l, seeded := x } st i.opcode info payload
    obtain ⟨⟨hv, -, hrx', -, hrst', -, hready', -⟩, -⟩ := commandsTouchOnlyTheEngineAndItsResponse i _ t hexec
    have hfirst := run_first_command hwi hrst hready hrx hrsp (by rw [hreq, List.flatMap_cons]) hexec
    obtain ⟨n, u, hperform, hrun⟩ := ih (t.withReq (is.flatMap encode)).drained (fun j hj => hv ▸ hwis j hj)
      (hrst'.trans hrst) (hready'.trans hready) (hrx'.trans hrx) rfl rfl
    refine ⟨_, u, ?_, (run_add_of_run n hfirst).trans hrun⟩
    have hhead : performAll (i :: is) (s.withReq []) = performAll is t.drained := by rw [performAll, hexec]
    exact hhead.trans hperform

end Sys2Proof.Machine
end

section
/-! PROOF. SEED_BYTES (R42, R124, R125): the little-endian words that it installs. -/

namespace Sys2Proof.Machine

/-- A StateArray word has a whole number of bytes, and its bytes make no more than a word beat. -/
theorem leWordAt_width_lt (v : Variant) (off : Nat) (bs : List Byte) :
    leWordAt (v.width / 8) off bs < 2 ^ v.width ∧ 2 ^ v.width ≤ 2 ^ 64 := by
  have hlt := leWordAt_lt (v.width / 8) off bs
  cases v <;> exact ⟨hlt, by decide⟩

/-- R124: on every variant without a warm-up word `k` is the value of its own `W/8` bytes. -/
theorem installSeed_eq_tabulate {v : Variant} (bs : List Byte) (hv : v ≠ .r30c) :
    installSeed v bs = Lattice.tabulate v fun k => BitVec.ofNat 64 (leWordAt (v.width / 8) (v.width / 8 * k) bs) := by
  cases v with
  | r30c => exact absurd rfl hv
  | r30p => rfl
  | eca1 => rfl
  | eca2 => rfl

/-- The seed buffer holds the bytes of every word, and no others, where there is no warm-up (R8). -/
theorem seedLen_eq {v : Variant} (hv : v ≠ .r30c) : v.seedLen = v.width / 8 * v.words := by
  cases v with
  | r30c => exact absurd rfl hv
  | r30p => rfl
  | eca1 => rfl
  | eca2 => rfl

/-- R42, R124: the words of the installed StateArray, as they are, where there is no warm-up. -/
theorem installSeed_word_toNat {v : Variant} {bs : List Byte} {k : Nat} (hv : v ≠ .r30c) (hlen : bs.length = v.seedLen)
    (hk : k < v.words) :
    ((installSeed v bs).word k).toNat =
      ∑ j ∈ Finset.range (v.width / 8), (bs.getD (v.width / 8 * k + j) 0).toNat * 256 ^ j := by
  have hthere : v.width / 8 * k + v.width / 8 ≤ bs.length := by
    rw [hlen, seedLen_eq hv, ← Nat.mul_succ]
    exact Nat.mul_le_mul_left _ hk
  obtain ⟨hlt, hbeat⟩ := leWordAt_width_lt v (v.width / 8 * k) bs
  rw [installSeed_eq_tabulate bs hv, Lattice.word_tabulate_toNat v _ k hk, ← leWordAt_eq_sum _ _ _ hthere,
    BitVec.toNat_ofNat, Nat.mod_eq_of_lt (hlt.trans_le hbeat), Nat.mod_eq_of_lt hlt]

/-- R124, R125: on R30C the first word is advanced by as many transitions as the second counts. -/
theorem installSeed_r30c {bs : List Byte} (hlen : bs.length = 8) :
    installSeed .r30c bs = transition^[∑ j ∈ Finset.range 4, (bs.getD (4 + j) 0).toNat * 256 ^ j]
      (.r30c #v[BitVec.ofNat 32 (∑ j ∈ Finset.range 4, (bs.getD j 0).toNat * 256 ^ j)]) := by
  have hfirst := leWordAt_eq_sum 4 0 bs (by omega)
  simp only [Nat.zero_add] at hfirst
  rw [installSeed, advance_eq_iterate, leWordAt_eq_sum 4 4 bs (by omega), hfirst]
  congr 1
  simp only [Lattice.tabulate, Lattice.r30c.injEq]
  ext k hk
  obtain rfl : k = 0 := by omega
  simp [BitVec.setWidth_ofNat_of_le]

/-- SEED_BYTES constructs, and answers one OK header (R123). -/
theorem exec_seedBytes (bs : List Byte) (s : State) :
    exec (.seedBytes bs) s = .next ((s.construct (installSeed s.variant bs)).respond .ok opcSeedBytes 0 []) := rfl

/-- Settles O34. -/
theorem seedBytesInstallsLittleEndianWords : Obligations.SeedBytesInstallsLittleEndianWords := by
  intro s bs hlen
  have hheader : responseHeader .ok opcSeedBytes 0 = 0x0700#64 := by decide
  obtain ⟨hsame, -⟩ := commandsTouchOnlyTheEngineAndItsResponse _ s _ (exec_seedBytes bs s)
  refine ⟨_, exec_seedBytes bs s, rfl, hsame, by rw [State.respond_rsp, hheader]; rfl, fun hv k hk => ?_, fun hv => ?_⟩
  · exact installSeed_word_toNat hv hlen hk
  · rw [hv] at hlen
    rw [State.respond_lattice, State.construct_lattice, hv]
    exact installSeed_r30c hlen

end Sys2Proof.Machine
end

section
/-! PROOF. Output as a stream of native words (R43 to R45, R69, R104 to R107): a fill takes the bytes of successive native words,
and a 64-bit output is a fill of eight bytes. -/

namespace Sys2Proof.Machine

/-! ### The answers of a seeded engine -/

/-- R66: the header of an OK response with `n` payload beats. -/
theorem responseHeader_ok (opc : Byte) (n : Nat) :
    responseHeader .ok opc (BitVec.ofNat 32 n) = (BitVec.ofNat 64 n <<< 32) ||| (opc.setWidth 64 <<< 8) := by
  have hinfo : (BitVec.ofNat 32 n).setWidth 64 <<< 32 = BitVec.ofNat 64 n <<< 32 := by
    refine BitVec.eq_of_toNat_eq ?_
    simp only [BitVec.toNat_shiftLeft, BitVec.toNat_setWidth, BitVec.toNat_ofNat, Nat.shiftLeft_eq]
    omega
  rw [responseHeader, hinfo]
  simp [Status.code]

/-- A seeded engine performs an output command: it leaves the new `S` and answers OK. -/
theorem ifSeeded_answer_of_seeded {s : State} (hs : s.seeded = true) {opc : Byte} {l : Lattice} {payload : List Beat}
    {header : Beat} (hheader : (BitVec.ofNat 64 payload.length <<< 32) ||| (opc.setWidth 64 <<< 8) = header) :
    s.ifSeeded opc ((s.withLattice l).answer opc payload) =
      .next { s with lattice := l, rsp := s.rsp ++ header :: payload } := by
  rw [State.ifSeeded, if_pos hs, State.answer, State.respond, responseHeader_ok, hheader]
  rfl

theorem exec_nextU32_of_seeded {s : State} (hs : s.seeded = true) :
    exec .nextU32 s = .next { s with
      lattice := (native s.build s.lattice).2
      rsp := s.rsp ++ [0x100000300#64, (native s.build s.lattice).1.low32.setWidth 64] } :=
  ifSeeded_answer_of_seeded hs (by rw [List.length_singleton]; decide)

theorem exec_nextU64_of_seeded {s : State} (hs : s.seeded = true) :
    exec .nextU64 s = .next { s with
      lattice := (nextU64Value s.build s.lattice).2
      rsp := s.rsp ++ [0x100000400#64, (nextU64Value s.build s.lattice).1] } :=
  ifSeeded_answer_of_seeded hs (by rw [List.length_singleton]; decide)

theorem exec_fillBytes_of_seeded {s : State} (hs : s.seeded = true) (n : Word32) :
    exec (.fillBytes n) s = .next { s with
      lattice := (fillBuffer s.build n.toNat s.lattice).2
      rsp := s.rsp ++ ((BitVec.ofNat 64 (byteBeats (fillBuffer s.build n.toNat s.lattice).1).length <<< 32) ||| 0x0500#64) ::
        byteBeats (fillBuffer s.build n.toNat s.lattice).1 } :=
  ifSeeded_answer_of_seeded hs rfl

/-! ### Two native words to a 64-bit output -/

/-- R106: on the 32-bit engines, two native words, the first in the low half. -/
theorem nextU64Value_of_narrow (b : Build) {l : Lattice} (hl : l.variant = .r30p ∨ l.variant = .r30c) :
    nextU64Value b l =
      ((native b l).1.low32.setWidth 64 ||| ((native b (native b l).2).1.low32.setWidth 64 <<< 32),
        (native b (native b l).2).2) := by
  cases l with
  | r30p a => rfl
  | r30c a => rfl
  | eca1 a => simp [Lattice.variant] at hl
  | eca2 a => simp [Lattice.variant] at hl

/-- Settles O53: NEXT_U64 reads the native words that two NEXT_U32 read. -/
theorem nextU64IsTwoNextU32LowWordFirst : Obligations.NextU64IsTwoNextU32LowWordFirst := by
  intro s hs hv
  refine ⟨_, _, _, _, exec_nextU32_of_seeded hs, rfl, exec_nextU32_of_seeded hs, rfl, ?_⟩
  rw [exec_nextU64_of_seeded hs, nextU64Value_of_narrow s.build hv]

/-! ### The bytes of successive native words -/

/-- The bytes of `k` successive native words (R43). -/
def nativeBytes (b : Build) : Nat → Lattice → List Byte
  | 0, _ => []
  | k + 1, l => (native b l).1.bytes ++ nativeBytes b k (native b l).2

theorem wordBytes_cases (v : Variant) : v.width / 8 = 4 ∨ v.width / 8 = 8 := by
  cases v <;> decide

@[simp] theorem nativeBytes_length (b : Build) (k : Nat) (l : Lattice) :
    (nativeBytes b k l).length = k * (l.variant.width / 8) := by
  induction k generalizing l with
  | zero => simp [nativeBytes]
  | succ k ih => rw [nativeBytes, List.length_append, native_bytes_length, ih, native_variant, Nat.succ_mul, Nat.add_comm]

theorem afterNatives_add (b : Build) (m k : Nat) (l : Lattice) :
    afterNatives b (m + k) l = afterNatives b k (afterNatives b m l) := by
  induction m generalizing l with
  | zero => rw [Nat.zero_add, afterNatives]
  | succ m ih => rw [Nat.succ_add, afterNatives, ih, afterNatives]

theorem nativeBytes_add (b : Build) (m k : Nat) (l : Lattice) :
    nativeBytes b (m + k) l = nativeBytes b m l ++ nativeBytes b k (afterNatives b m l) := by
  induction m generalizing l with
  | zero => rw [Nat.zero_add, nativeBytes, afterNatives, List.nil_append]
  | succ m ih => rw [Nat.succ_add, nativeBytes, ih, nativeBytes, afterNatives, List.append_assoc]

/-- R14, R107: the bytes of a native word, the lowest first. -/
theorem native_bytes_getD (b : Build) (l : Lattice) (j : Nat) (hj : j < l.variant.width / 8) :
    (native b l).1.bytes.getD j 0 = (native b l).1.byte j := by
  cases l with
  | r30p a => exact leBytes_getD 4 _ j (by simpa [Lattice.variant, Variant.width] using hj)
  | r30c a => exact leBytes_getD 4 _ j (by simpa [Lattice.variant, Variant.width] using hj)
  | eca1 a => exact leBytes_getD 8 _ j (by simpa [Lattice.variant, Variant.width] using hj)
  | eca2 a => exact leBytes_getD 8 _ j (by simpa [Lattice.variant, Variant.width] using hj)

/-- Byte `j` of the stream is byte `j mod W/8` of the native word produced after `j / (W/8)` others. -/
theorem nativeBytes_getD (b : Build) (k : Nat) (l : Lattice) (j : Nat) (hj : j < k * (l.variant.width / 8)) :
    (nativeBytes b k l).getD j 0 =
      (native b (afterNatives b (j / (l.variant.width / 8)) l)).1.byte (j % (l.variant.width / 8)) := by
  induction k generalizing l j with
  | zero => omega
  | succ k ih =>
    rw [nativeBytes]
    by_cases h : j < l.variant.width / 8
    · rw [List.getD_append _ _ _ _ (by simpa using h), native_bytes_getD b l j h, Nat.div_eq_of_lt h, Nat.mod_eq_of_lt h,
        afterNatives]
    · have hpos : 0 < l.variant.width / 8 := by have := wordBytes_cases l.variant; omega
      obtain ⟨i, rfl⟩ : ∃ i, j = i + l.variant.width / 8 := ⟨j - l.variant.width / 8, by omega⟩
      rw [List.getD_append_right _ _ _ _ (by simp), native_bytes_length, Nat.add_sub_cancel,
        ih _ i (by rw [native_variant]; rw [Nat.succ_mul] at hj; omega), native_variant, Nat.add_div_right _ hpos,
        Nat.add_mod_right, afterNatives]

/-! ### The fill loop -/

/-- No bytes take no native word. -/
@[simp] theorem ceilDiv_zero (v : Variant) : ceilDiv 0 (v.width / 8) = 0 := by
  obtain h | h := wordBytes_cases v <;> rw [h, ceilDiv]

/-- One native word, then those for the bytes that it leaves missing. -/
theorem ceilDiv_eq_succ {n : Nat} (v : Variant) (hn : 0 < n) :
    ceilDiv n (v.width / 8) = ceilDiv (n - v.width / 8) (v.width / 8) + 1 := by
  obtain h | h := wordBytes_cases v <;> rw [h, ceilDiv, ceilDiv] <;> omega

/-- The loop of R107 adds as many native words as cover the bytes still missing. -/
theorem fillLoop_eq (b : Build) (nbytes fuel : Nat) (buf : List Byte) (l : Lattice) (hfuel : nbytes ≤ buf.length + fuel) :
    fillLoop b nbytes fuel buf l =
      (buf ++ nativeBytes b (ceilDiv (nbytes - buf.length) (l.variant.width / 8)) l,
        afterNatives b (ceilDiv (nbytes - buf.length) (l.variant.width / 8)) l) := by
  have hfull (buf : List Byte) (l : Lattice) (hle : nbytes ≤ buf.length) : (buf, l) =
      (buf ++ nativeBytes b (ceilDiv (nbytes - buf.length) (l.variant.width / 8)) l,
        afterNatives b (ceilDiv (nbytes - buf.length) (l.variant.width / 8)) l) := by
    rw [Nat.sub_eq_zero_of_le hle, ceilDiv_zero, nativeBytes, afterNatives, List.append_nil]
  induction fuel generalizing buf l with
  | zero => exact hfull buf l hfuel
  | succ fuel ih =>
    rw [fillLoop]
    split_ifs with hmissing
    · have hword := wordBytes_cases l.variant
      have hlen : (buf ++ (native b l).1.bytes).length = buf.length + l.variant.width / 8 := by simp
      rw [ih _ _ (by omega), hlen, native_variant, ceilDiv_eq_succ l.variant (by omega : 0 < nbytes - buf.length),
        Nat.sub_sub, nativeBytes, afterNatives, List.append_assoc]
    · exact hfull buf l (Nat.le_of_not_lt hmissing)

/-- R107: the buffer is the cut stream of `ceil(NBYTES / (W/8))` native words. -/
theorem fillBuffer_eq (b : Build) (nbytes : Nat) (l : Lattice) :
    fillBuffer b nbytes l =
      ((nativeBytes b (ceilDiv nbytes (l.variant.width / 8)) l).take nbytes,
        afterNatives b (ceilDiv nbytes (l.variant.width / 8)) l) := by
  simp [fillBuffer, fillLoop_eq b nbytes nbytes [] l (by simp)]

/-- That many native words hold the bytes asked for. -/
theorem le_ceilDiv_mul (n : Nat) (v : Variant) : n ≤ ceilDiv n (v.width / 8) * (v.width / 8) := by
  obtain h | h := wordBytes_cases v <;> rw [h, ceilDiv] <;> omega

@[simp] theorem fillBuffer_length (b : Build) (nbytes : Nat) (l : Lattice) : (fillBuffer b nbytes l).1.length = nbytes := by
  rw [fillBuffer_eq, List.length_take, nativeBytes_length]
  exact Nat.min_eq_left (le_ceilDiv_mul nbytes l.variant)

/-- R43, R107: byte `k` of a fill buffer, and 0 past its end. -/
theorem fillBuffer_getD (b : Build) (nbytes : Nat) (l : Lattice) (k : Nat) :
    (fillBuffer b nbytes l).1.getD k 0 =
      if k < nbytes then
        (native b (afterNatives b (k / (l.variant.width / 8)) l)).1.byte (k % (l.variant.width / 8))
      else 0 := by
  split_ifs with hk
  · rw [← nativeBytes_getD b (ceilDiv nbytes (l.variant.width / 8)) l k (hk.trans_le (le_ceilDiv_mul nbytes l.variant)),
      fillBuffer_eq]
    simp [List.getD_eq_getElem?_getD, hk]
  · exact List.getD_eq_default _ _ (by simpa using hk)

/-- Settles O54. -/
theorem fillBytesStreamsNativeWords : Obligations.FillBytesStreamsNativeWords := by
  rintro s n wb hs rfl
  refine ⟨byteBeats (fillBuffer s.build n.toNat s.lattice).1, ?_, ?_, fun k hk => ?_⟩
  · rw [exec_fillBytes_of_seeded hs, fillBuffer_eq]
    rfl
  · rw [byteBeats_length, fillBuffer_length, ceilDiv]
  · rw [byteBeats_byte _ k hk, fillBuffer_getD]
    rfl

/-! ### Fills compose -/

/-- A whole number of native words is that many, and the rest is counted from there. -/
theorem ceilDiv_mul_add (m c : Nat) (v : Variant) :
    ceilDiv (m * (v.width / 8) + c) (v.width / 8) = m + ceilDiv c (v.width / 8) := by
  obtain h | h := wordBytes_cases v <;> rw [h, ceilDiv, ceilDiv] <;> omega

/-- A fill of whole native words cuts nothing. -/
theorem fillBuffer_whole (b : Build) (m : Nat) (l : Lattice) :
    fillBuffer b (m * (l.variant.width / 8)) l = (nativeBytes b m l, afterNatives b m l) := by
  have hcount : ceilDiv (m * (l.variant.width / 8)) (l.variant.width / 8) = m := by
    obtain h | h := wordBytes_cases l.variant <;> rw [h, ceilDiv] <;> omega
  rw [fillBuffer_eq, hcount, List.take_of_length_le (by simp)]

/-- Settles O56: the second fill goes on where the first native words end. -/
theorem fillsComposeAtWordBoundaries : Obligations.FillsComposeAtWordBoundaries := by
  intro b l m c
  rw [fillBuffer_whole, fillBuffer_eq b c, fillBuffer_eq, ceilDiv_mul_add, nativeBytes_add, afterNatives_add,
    afterNatives_variant, ← nativeBytes_length b m l, List.take_length_add_append]

/-! ### Eight bytes -/

/-- The byte beat of the bytes of a 64-bit word is that word (R14, R69). -/
theorem byteBeats_leBytes (v : Word64) : byteBeats (leBytes 8 v) = [v] := by
  have hbeat : beatOfBytes (fun j => (leBytes 8 v).getD (8 * 0 + j) 0) = v := by
    refine BitVec.eq_of_getLsbD_eq fun j hj => ?_
    have hbit := beatOfBytes_getLsbD (fun j => (leBytes 8 v).getD (8 * 0 + j) 0) (j / 8) (j % 8) (by omega) (by omega)
    rw [Nat.div_add_mod, Nat.mul_zero, Nat.zero_add, leBytes_getD _ _ _ (by omega), BitVec.getLsbD_extractLsb',
      Nat.div_add_mod, decide_eq_true (by omega), Bool.true_and] at hbit
    exact hbit
  rw [byteBeats, leBytes_length, show ceilDiv 8 8 = 1 from rfl, List.range_one, List.map_singleton, hbeat]

/-- The bytes of two halves, the low one first, are the bytes of the word that they make. -/
theorem leBytes_append_leBytes (lo hi : Word32) :
    leBytes 4 lo ++ leBytes 4 hi = leBytes 8 (lo.setWidth 64 ||| (hi.setWidth 64 <<< 32)) := by
  have hrange : List.range 8 = List.range 4 ++ (List.range 4).map (4 + ·) := rfl
  rw [leBytes, leBytes, leBytes, hrange, List.map_append, List.map_map]
  congr 1
  · refine List.map_congr_left fun j hj => BitVec.eq_of_getLsbD_eq fun i hlt => ?_
    have hj := List.mem_range.1 hj
    simp [hlt, show 8 * j + i < 64 by omega, show 8 * j + i < 32 by omega]
  · refine List.map_congr_left fun j hj => BitVec.eq_of_getLsbD_eq fun i hlt => ?_
    have hj := List.mem_range.1 hj
    simp [hlt, BitVec.getLsbD_of_ge lo (8 * (4 + j) + i) (by omega), show 8 * (4 + j) + i < 64 by omega,
      show ¬ 8 * (4 + j) + i < 32 by omega, show 8 * (4 + j) + i - 32 = 8 * j + i by omega]

/-- R8: a native word of a 32-bit engine is four bytes. -/
theorem native_bytes_of_narrow (b : Build) {l : Lattice} (hl : l.variant = .r30p ∨ l.variant = .r30c) :
    (native b l).1.bytes = leBytes 4 (native b l).1.low32 := by
  cases l with
  | r30p a => rfl
  | r30c a => rfl
  | eca1 a => simp [Lattice.variant] at hl
  | eca2 a => simp [Lattice.variant] at hl

theorem fillBuffer_eight_of_narrow (b : Build) {l : Lattice} (hl : l.variant = .r30p ∨ l.variant = .r30c) :
    fillBuffer b 8 l = (leBytes 8 (nextU64Value b l).1, (nextU64Value b l).2) := by
  have htwo : 2 * (l.variant.width / 8) = 8 := by
    obtain h | h := hl <;> rw [h] <;> rfl
  have hfill := fillBuffer_whole b 2 l
  have hl' : (native b l).2.variant = .r30p ∨ (native b l).2.variant = .r30c := by rwa [native_variant]
  rw [htwo, nativeBytes, nativeBytes, nativeBytes, List.append_nil, native_bytes_of_narrow b hl,
    native_bytes_of_narrow b hl', leBytes_append_leBytes] at hfill
  rw [hfill, nextU64Value_of_narrow b hl]
  rfl

theorem fillBuffer_eight_of_wide (b : Build) {l : Lattice} (hl : l.variant = .eca1 ∨ l.variant = .eca2) :
    fillBuffer b 8 l = (leBytes 8 (nextU64Value b l).1, (nextU64Value b l).2) := by
  have hone : 1 * (l.variant.width / 8) = 8 := by
    obtain h | h := hl <;> rw [h] <;> rfl
  have hfill := fillBuffer_whole b 1 l
  rw [hone, nativeBytes, nativeBytes, List.append_nil] at hfill
  rw [hfill]
  cases l with
  | r30p a => simp [Lattice.variant] at hl
  | r30c a => simp [Lattice.variant] at hl
  | eca1 a => rfl
  | eca2 a => rfl

/-- R45: the eight bytes of a fill and the `S` after it are those of one 64-bit output. -/
theorem fillBuffer_eight (b : Build) (l : Lattice) :
    fillBuffer b 8 l = (leBytes 8 (nextU64Value b l).1, (nextU64Value b l).2) := by
  cases hv : l.variant with
  | r30p => exact fillBuffer_eight_of_narrow b (.inl hv)
  | r30c => exact fillBuffer_eight_of_narrow b (.inr hv)
  | eca1 => exact fillBuffer_eight_of_wide b (.inl hv)
  | eca2 => exact fillBuffer_eight_of_wide b (.inr hv)

/-- Settles O55. -/
theorem fillOfEightBytesIsOneNextU64 : Obligations.FillOfEightBytesIsOneNextU64 := by
  intro s hs
  have hheader : (BitVec.ofNat 64 1 <<< 32) ||| 0x0500#64 = 0x100000500#64 := by decide
  refine ⟨_, _, exec_nextU64_of_seeded hs, ?_⟩
  rw [exec_fillBytes_of_seeded hs, show (8 : Word32).toNat = 8 from rfl, fillBuffer_eight, byteBeats_leBytes,
    List.length_singleton, hheader]

end Sys2Proof.Machine
end

section
/-! PROOF. The decoder (R62 to R65, R69 to R78): the nine cases of a header, what each asks for as its payload, and which bits
of a stream it does not read. -/

namespace Sys2Proof.Machine

/-! ### The nine cases -/

/-- R70, R73: an opcode is one of the eight that are assigned, or it is reserved. -/
theorem opcode_cases (o : Byte) :
    o = opcLoadState ∨ o = opcReadState ∨ o = opcNextU32 ∨ o = opcNextU64 ∨ o = opcFillBytes ∨ o = opcSeedU64 ∨
      o = opcSeedBytes ∨ o = opcStep ∨ reservedOpc o = true := by
  revert o
  decide

theorem reservedOpc_eq_true {o : Byte} : reservedOpc o = true ↔ o = 0 ∨ 9 ≤ o.toNat := by
  simp [reservedOpc]

theorem ne_of_reservedOpc {o o' : Byte} (ho : reservedOpc o = true) (ho' : reservedOpc o' = false) : o ≠ o' := by
  rintro rfl
  exact Bool.noConfusion (ho.symm.trans ho')

theorem assemble_loadState {v : Variant} {h : Beat} {ps : List Beat} (ho : headerOpc h = opcLoadState) :
    assemble v h ps = .loadState ps := by rw [assemble, ho]; rfl

theorem assemble_readState {v : Variant} {h : Beat} {ps : List Beat} (ho : headerOpc h = opcReadState) :
    assemble v h ps = .readState := by rw [assemble, ho]; rfl

theorem assemble_nextU32 {v : Variant} {h : Beat} {ps : List Beat} (ho : headerOpc h = opcNextU32) :
    assemble v h ps = .nextU32 := by rw [assemble, ho]; rfl

theorem assemble_nextU64 {v : Variant} {h : Beat} {ps : List Beat} (ho : headerOpc h = opcNextU64) :
    assemble v h ps = .nextU64 := by rw [assemble, ho]; rfl

theorem assemble_fillBytes {v : Variant} {h : Beat} {ps : List Beat} (ho : headerOpc h = opcFillBytes) :
    assemble v h ps = .fillBytes (headerArg h) := by rw [assemble, ho]; rfl

theorem assemble_seedU64 {v : Variant} {h : Beat} {ps : List Beat} (ho : headerOpc h = opcSeedU64) :
    assemble v h ps = .seedU64 (ps.headD 0) := by rw [assemble, ho]; rfl

theorem assemble_seedBytes {v : Variant} {h : Beat} {ps : List Beat} (ho : headerOpc h = opcSeedBytes) :
    assemble v h ps = .seedBytes ((ps.flatMap beatBytes).take v.seedLen) := by rw [assemble, ho]; rfl

theorem assemble_step {v : Variant} {h : Beat} {ps : List Beat} (ho : headerOpc h = opcStep) :
    assemble v h ps = .step (headerArg h) := by rw [assemble, ho]; rfl

theorem assemble_reserved {v : Variant} {h : Beat} {ps : List Beat} (ho : reservedOpc (headerOpc h) = true) :
    assemble v h ps = .reserved (headerOpc h) := by
  simp only [assemble, ne_of_reservedOpc ho (o' := opcLoadState) rfl, ne_of_reservedOpc ho (o' := opcReadState) rfl,
    ne_of_reservedOpc ho (o' := opcNextU32) rfl, ne_of_reservedOpc ho (o' := opcNextU64) rfl,
    ne_of_reservedOpc ho (o' := opcFillBytes) rfl, ne_of_reservedOpc ho (o' := opcSeedU64) rfl,
    ne_of_reservedOpc ho (o' := opcSeedBytes) rfl, ne_of_reservedOpc ho (o' := opcStep) rfl, if_false]

theorem payloadBeats_loadState {v : Variant} {h : Beat} (ho : headerOpc h = opcLoadState) :
    payloadBeats v h = (headerArg h).toNat := if_pos ho

theorem payloadBeats_seedU64 {v : Variant} {h : Beat} (ho : headerOpc h = opcSeedU64) : payloadBeats v h = 1 := by
  rw [payloadBeats, ho]; rfl

theorem payloadBeats_seedBytes {v : Variant} {h : Beat} (ho : headerOpc h = opcSeedBytes) :
    payloadBeats v h = ceilDiv v.seedLen 8 := by
  rw [payloadBeats, ho]; rfl

/-- The seed bytes that a SEED_BYTES payload carries are all there (R69, R71). -/
theorem seedLen_le_of_payload {v : Variant} {h : Beat} {ps : List Beat} (ho : headerOpc h = opcSeedBytes)
    (hlen : ps.length = payloadBeats v h) : v.seedLen ≤ (ps.flatMap beatBytes).length := by
  rw [flatMap_beatBytes_length, hlen, payloadBeats_seedBytes ho, ceilDiv]
  omega

/-- A header with the beats it asks for is decoded, and nothing is left. -/
theorem decode_header_payload {v : Variant} {h : Beat} {ps : List Beat} (hlen : ps.length = payloadBeats v h) :
    decode v (h :: ps) = .ok (assemble v h ps, []) :=
  (decode_eq_ok v _ _ _).2 ⟨h, ps, (List.append_nil _).symm, hlen, rfl⟩

/-- Settles O1: the header of an encoded command announces its payload, and the two select the command. -/
theorem decodeInvertsEncode : Obligations.DecodeInvertsEncode := fun _ _ rest hw => decode_encode_append rest hw

/-- Settles O3: each clause is one of the nine cases. -/
theorem everyHeaderDecodesToOneOfNineCases : Obligations.EveryHeaderDecodesToOneOfNineCases := by
  intro v h ps hlen
  rw [decode_header_payload hlen]
  refine ⟨fun ho => ⟨hlen.trans (payloadBeats_loadState ho), by rw [assemble_loadState ho]⟩,
    fun ho => by rw [assemble_readState ho], fun ho => by rw [assemble_nextU32 ho], fun ho => by rw [assemble_nextU64 ho],
    fun ho => by rw [assemble_fillBytes ho]; rfl, fun ho => ?_, fun ho => ?_, fun ho => by rw [assemble_step ho]; rfl,
    fun ho => ?_⟩
  · obtain ⟨seed, rfl⟩ := List.length_eq_one_iff.1 (hlen.trans (payloadBeats_seedU64 ho))
    exact ⟨seed, rfl, by rw [assemble_seedU64 ho]; rfl⟩
  · have hall := seedLen_le_of_payload ho hlen
    refine ⟨(ps.flatMap beatBytes).take v.seedLen, by rw [assemble_seedBytes ho], List.length_take_of_le hall,
      fun k hk => ?_⟩
    rw [← flatMap_beatBytes_getD ps k (by rw [← flatMap_beatBytes_length]; omega)]
    simp [List.getD_eq_getElem?_getD, hk]
  · rw [assemble_reserved (reservedOpc_eq_true.2 ho)]
    rfl

/-! ### What is decoded is well formed and framed -/

@[simp] theorem assemble_opcode (v : Variant) (h : Beat) (ps : List Beat) : (assemble v h ps).opcode = headerOpc h := by
  obtain ho | ho | ho | ho | ho | ho | ho | ho | ho := opcode_cases (headerOpc h)
  · rw [assemble_loadState ho, ho, Instr.opcode]
  · rw [assemble_readState ho, ho, Instr.opcode]
  · rw [assemble_nextU32 ho, ho, Instr.opcode]
  · rw [assemble_nextU64 ho, ho, Instr.opcode]
  · rw [assemble_fillBytes ho, ho, Instr.opcode]
  · rw [assemble_seedU64 ho, ho, Instr.opcode]
  · rw [assemble_seedBytes ho, ho, Instr.opcode]
  · rw [assemble_step ho, ho, Instr.opcode]
  · rw [assemble_reserved ho, Instr.opcode]

/-- A header's ARG counts the words of a LOAD_STATE, its variant the bytes of a SEED_BYTES, and what no row of the table
takes is reserved. -/
theorem assemble_wellFormed {v : Variant} {h : Beat} {ps : List Beat} (hlen : ps.length = payloadBeats v h) :
    (assemble v h ps).wellFormed v = true := by
  obtain ho | ho | ho | ho | ho | ho | ho | ho | ho := opcode_cases (headerOpc h)
  · rw [assemble_loadState ho, Instr.wellFormed, hlen, payloadBeats_loadState ho]
    exact decide_eq_true (headerArg h).isLt
  · rw [assemble_readState ho, Instr.wellFormed]
  · rw [assemble_nextU32 ho, Instr.wellFormed]
  · rw [assemble_nextU64 ho, Instr.wellFormed]
  · rw [assemble_fillBytes ho, Instr.wellFormed]
  · rw [assemble_seedU64 ho, Instr.wellFormed]
  · rw [assemble_seedBytes ho, Instr.wellFormed, beq_iff_eq]
    exact List.length_take_of_le (seedLen_le_of_payload ho hlen)
  · rw [assemble_step ho, Instr.wellFormed]
  · rw [assemble_reserved ho, Instr.wellFormed, ho]

/-- R71: `P` is found from OPC, and from ARG for LOAD_STATE alone. -/
theorem payloadBeats_congr {v : Variant} {h h' : Beat} (ho : headerOpc h = headerOpc h')
    (ha : headerOpc h = opcLoadState → headerArg h = headerArg h') : payloadBeats v h = payloadBeats v h' := by
  by_cases hload : headerOpc h = opcLoadState
  · rw [payloadBeats_loadState hload, payloadBeats_loadState (ho ▸ hload), ha hload]
  · simp only [payloadBeats, ← ho, hload, if_false]

/-- A decoded command is encoded in as many payload beats as it was decoded from: its own header asks for as many. -/
theorem assemble_payload_length {v : Variant} {h : Beat} {ps : List Beat} (hlen : ps.length = payloadBeats v h) :
    (assemble v h ps).payload.length = ps.length := by
  rw [← payloadBeats_encoded (assemble_wellFormed hlen), hlen]
  refine payloadBeats_congr (by simp) fun hload => ?_
  have ho : headerOpc h = opcLoadState := by simpa using hload
  rw [headerArg_makeHeader, assemble_loadState ho, Instr.arg, hlen, payloadBeats_loadState ho, BitVec.ofNat_toNat,
    BitVec.setWidth_eq]

/-- Settles O2. -/
theorem decodedCommandIsWellFormedAndFramed : Obligations.DecodedCommandIsWellFormedAndFramed := by
  intro v beats i rest hd
  obtain ⟨h, payload, hbeats, hlen, rfl⟩ := (decode_eq_ok v beats i rest).1 hd
  refine ⟨assemble_wellFormed hlen, h, payload, hbeats, ?_, (assemble_opcode v h payload).symm⟩
  rw [encode, List.length_cons, assemble_payload_length hlen]

/-- Settles O4: `payloadBeats` is the `P` of the statement. -/
theorem payloadLengthFollowsFromHeader : Obligations.PayloadLengthFollowsFromHeader := by
  intro v h tail p hp
  have hpay : p = payloadBeats v h := hp.trans (by cases v <;> rfl)
  subst hpay
  exact ⟨fun hlt => (decode_eq_error v _ _).2 (.inr ⟨h, tail, rfl, hlt, rfl⟩), fun hle => ⟨_, (decode_eq_ok v _ _ _).2
    ⟨h, tail.take (payloadBeats v h), by simp, List.length_take_of_le hle, rfl⟩⟩⟩

/-! ### The bits that are not read -/

/-- R65: a command is made from OPC, and from ARG for LOAD_STATE (by its payload), FILL_BYTES and STEP alone. -/
theorem assemble_congr {v : Variant} {h h' : Beat} (ps : List Beat) (ho : headerOpc h = headerOpc h')
    (ha : headerOpc h = opcFillBytes ∨ headerOpc h = opcStep → headerArg h = headerArg h') :
    assemble v h ps = assemble v h' ps := by
  by_cases hreads : headerOpc h = opcFillBytes ∨ headerOpc h = opcStep
  · simp only [assemble, ← ho, ha hreads]
  · obtain ⟨hfill, hstep⟩ := not_or.1 hreads
    simp only [assemble, ← ho, hfill, hstep, if_false]

/-- Settles O5: neither `P` nor the command depends on the other bits. -/
theorem ignoredHeaderBitsChangeNothing : Obligations.IgnoredHeaderBitsChangeNothing := by
  intro v h h' tail ho ha
  have hp : payloadBeats v h = payloadBeats v h' := payloadBeats_congr ho fun hload => ha (.inl hload)
  have hi (ps : List Beat) : assemble v h ps = assemble v h' ps := assemble_congr ps ho fun hreads => ha (.inr hreads)
  rw [decode, decode, hp, hi]

/-- R69: the first four bytes of a beat are those of its low half. -/
theorem beatBytes_take_four (b : Beat) : (beatBytes b).take 4 = leBytes 4 (b.setWidth 32) := by
  rw [beatBytes, leBytes, ← List.map_take]
  refine List.map_congr_left fun j hj => BitVec.eq_of_getLsbD_eq fun i hi => ?_
  have hj : j < 4 := List.mem_range.1 hj
  simp [hi, show 8 * j + i < 32 by omega]

/-- R69: of the fifth beat after 32 bytes, the 36 bytes of an R30P seed take the low half alone. -/
theorem flatMap_beatBytes_take_of_fifth_beat {bs : List Beat} (x : Beat) (hbs : bs.length = 4) :
    ((bs ++ [x]).flatMap beatBytes).take 36 = bs.flatMap beatBytes ++ leBytes 4 (x.setWidth 32) := by
  have hlen : (bs.flatMap beatBytes).length = 32 := by rw [flatMap_beatBytes_length, hbs]
  rw [List.flatMap_append, List.take_append, hlen, List.take_of_length_le (by omega), List.flatMap_singleton,
    ← beatBytes_take_four]

/-- R69, R123: an R30P SEED_BYTES command of five payload beats. -/
theorem decode_seedBytes_r30p {h x : Beat} {bs tail : List Beat} (ho : headerOpc h = opcSeedBytes) (hbs : bs.length = 4) :
    decode .r30p (h :: (bs ++ x :: tail)) = .ok (.seedBytes (bs.flatMap beatBytes ++ leBytes 4 (x.setWidth 32)), tail) := by
  refine (decode_eq_ok _ _ _ _).2 ⟨h, bs ++ [x], by simp, ?_, ?_⟩
  · rw [payloadBeats_seedBytes ho, List.length_append, hbs]; rfl
  · rw [assemble_seedBytes ho, Variant.seedLen, flatMap_beatBytes_take_of_fifth_beat x hbs]

/-- R14, R68: the words of a 32-bit variant are the low halves of their beats. -/
theorem tabulate_congr_of_narrow {v : Variant} {f g : Nat → Word64} (hv : v.width = 32)
    (hfg : ∀ k, (f k).setWidth 32 = ((g k).setWidth 32 : Word32)) : Lattice.tabulate v f = Lattice.tabulate v g := by
  cases v with
  | r30p => simp only [Lattice.tabulate, hfg]
  | r30c => simp only [Lattice.tabulate, hfg]
  | eca1 => exact absurd hv (by decide)
  | eca2 => exact absurd hv (by decide)

/-- Settles O6. -/
theorem inputPaddingIsIgnored : Obligations.InputPaddingIsIgnored := by
  refine ⟨fun h b0 b1 b2 b3 x y tail ho hxy => ?_, fun s ws ws' hv hlen hwords => ?_⟩
  · have hx := decode_seedBytes_r30p (x := x) (bs := [b0, b1, b2, b3]) (tail := tail) ho rfl
    have hy := decode_seedBytes_r30p (x := y) (bs := [b0, b1, b2, b3]) (tail := tail) ho rfl
    exact hx.trans (hxy ▸ hy.symm)
  · rw [exec, exec, execLoadState, execLoadState, hlen, tabulate_congr_of_narrow hv hwords]

/-! ### The header words of R78 -/

/-- Settles O7: the words that are read back are the encodings of their commands. -/
theorem headerWordsOfTheCommands : Obligations.HeaderWordsOfTheCommands := by
  have hload : encode (.loadState (List.replicate 9 0)) = 0x0000000900000001 :: List.replicate 9 0 := by decide
  have hfill : encode (.fillBytes 13) = [0x0000000D00000005] := by decide
  have hstep : encode (.step 1) = [0x0000000100000008] := by decide
  have hback {i : Instr} (hw : i.wellFormed .r30p = true) : decode .r30p (encode i) = .ok (i, []) := by
    simpa using decode_encode_append [] hw
  exact ⟨hload, by decide, by decide, by decide, hfill, by decide, by decide, hstep, hload ▸ hback (by decide),
    hfill ▸ hback rfl, hstep ▸ hback rfl⟩

end Sys2Proof.Machine
end

section
/-! PROOF. One step and its handshakes (R60 to R62, R165, R167). -/

namespace Sys2Proof.Machine

/-- Settles O8. -/
theorem stepPerformsTheDecodedCommand : Obligations.StepPerformsTheDecodedCommand :=
  fun _ _ _ hrst hrsp hd => step_of_command hrst hrsp hd

/-- R167: with the host not ready, the engine waits. -/
theorem step_of_pending_not_ready {s : State} (hrst : s.rst = false) (hready : s.rspReady = false) (hrsp : s.rsp ≠ []) :
    step s = .next s := by
  rw [step_of_pending hrst hrsp]
  obtain ⟨_, _, -, hready', -⟩ | ⟨-, heq⟩ := s.transferResponse_cases
  · exact Bool.noConfusion (hready.symm.trans hready')
  · rw [heq]

/-- Settles O11. -/
theorem pendingResponseHoldsTheEngine : Obligations.PendingResponseHoldsTheEngine := fun _ _ _ hrst hrsp =>
  ⟨fun hready => step_of_pending_not_ready hrst hready (by simp [hrsp]),
    fun hready => step_of_pending_ready hrst hready hrsp⟩

/-- R60, R160, R167. -/
theorem State.reqReady_iff (s : State) : s.reqReady = true ↔ s.rst = false ∧ s.rsp = [] := by
  simp [State.reqReady]

/-- R60, R160. -/
theorem State.rspValid_iff (s : State) : s.rspValid = true ↔ s.rst = false ∧ s.rsp ≠ [] := by
  simp [State.rspValid]

/-- R61: a request beat leaves the offer only in a step that is out of reset and has no response pending. -/
theorem step_req_of_not_ready {s t : State} (h : step s = .next t) (hready : s.reqReady = false) : t.req = s.req := by
  have hbusy : ¬ (s.rst = false ∧ s.rsp = []) := fun hidle => by simp [s.reqReady_iff.2 hidle] at hready
  obtain ⟨-, rfl⟩ | ⟨-, -, rfl⟩ | ⟨hrst, hrsp, -⟩ | ⟨hrst, hrsp, -⟩ := step_cases s t h
  · exact s.hardwareReset_req
  · obtain ⟨_, _, -, -, heq⟩ | ⟨-, heq⟩ := s.transferResponse_cases <;> rw [heq]
  · exact absurd ⟨hrst, hrsp⟩ hbusy
  · exact absurd ⟨hrst, hrsp⟩ hbusy

/-- R61: a step transfers the first pending response beat, under its handshake, or it transfers none; and then a response that
is offered stays as it is. -/
theorem step_response_cases {s t : State} (h : step s = .next t) :
    (s.rspValid = true ∧ s.rspReady = true ∧ ∃ b, s.rsp = b :: t.rsp ∧ t.taken = s.taken ++ [b]) ∨
    (t.taken = s.taken ∧ (s.rspValid = true → t.rsp = s.rsp)) := by
  have hidle (hrsp : s.rsp = []) : s.rspValid = true → t.rsp = s.rsp := fun hvalid =>
    absurd hrsp (s.rspValid_iff.1 hvalid).2
  obtain ⟨hrst, rfl⟩ | ⟨hrst, hpending, rfl⟩ | ⟨-, hrsp, i, rest, -, hexec⟩ | ⟨-, hrsp, -, rfl⟩ := step_cases s t h
  · exact .inr ⟨s.hardwareReset_taken, fun hvalid => Bool.noConfusion (hrst.symm.trans (s.rspValid_iff.1 hvalid).1)⟩
  · obtain ⟨b, bs, hrsp, hready, heq⟩ | ⟨-, heq⟩ := s.transferResponse_cases
    · exact .inl ⟨s.rspValid_iff.2 ⟨hrst, hpending⟩, hready, b, by rw [heq, hrsp], by rw [heq]⟩
    · exact .inr (by simp only [heq, implies_true, and_self])
  · obtain ⟨⟨-, -, -, -, -, -, -, htaken⟩, -⟩ := commandsTouchOnlyTheEngineAndItsResponse i _ t hexec
    exact .inr ⟨htaken, hidle hrsp⟩
  · exact .inr ⟨s.awaitBeats_taken, hidle hrsp⟩

/-- Settles O13. -/
theorem beatsTransferOnlyUnderHandshake : Obligations.BeatsTransferOnlyUnderHandshake := by
  intro s t h
  refine ⟨step_req_of_not_ready h, ?_⟩
  obtain ⟨hvalid, hready, b, hrsp, htaken⟩ | ⟨htaken, hstays⟩ := step_response_cases h
  · exact ⟨by simp [hvalid, hready], by simp [hready], .inr ⟨b, hrsp, htaken⟩⟩
  · exact ⟨fun _ => htaken, fun hvalid _ => hstays hvalid, .inl htaken⟩

end Sys2Proof.Machine
end

section
/-! PROOF. The response to each command: its status, its INFO and the number of its payload beats (R66, R67, R72, R145), and what
LOAD_STATE installs (R121). -/

namespace Sys2Proof.Machine

/-- R72: how many payload beats the OK response to a command has, on an engine of variant `v`. -/
def okPayloadCount (v : Variant) : Instr → Nat
  | .loadState _ => 0
  | .readState => v.words
  | .nextU32 => 1
  | .nextU64 => 1
  | .fillBytes n => ceilDiv n.toNat 8
  | .seedU64 _ => 0
  | .seedBytes _ => 0
  | .step _ => 0
  | .reserved _ => 0

/-- `INFO` can count the words of every variant. -/
theorem words_lt (v : Variant) : v.words < 2 ^ 32 := by
  cases v <;> decide

/-- `INFO` can count the payload beats of every OK response. -/
theorem okPayloadCount_lt (v : Variant) (i : Instr) : okPayloadCount v i < 2 ^ 32 := by
  cases i with
  | readState => exact words_lt v
  | fillBytes n =>
    have := n.isLt
    rw [okPayloadCount, ceilDiv]
    omega
  | nextU32 => exact Nat.one_lt_two_pow (by decide)
  | nextU64 => exact Nat.one_lt_two_pow (by decide)
  | loadState ws => exact Nat.two_pow_pos 32
  | seedU64 seed => exact Nat.two_pow_pos 32
  | seedBytes bs => exact Nat.two_pow_pos 32
  | step c => exact Nat.two_pow_pos 32
  | reserved opc => exact Nat.two_pow_pos 32

/-- The command is answered OK: it has the length it needs, it needs no `S` that is not there, and it is no reserved one. -/
def Accepted (s : State) (i : Instr) : Prop :=
  (∀ opc, i ≠ .reserved opc) ∧ (∀ ws, i = .loadState ws → ws.length = s.variant.words) ∧
    (needsSeed i = true → s.seeded = true)

/-- From `s`, the result is an OK answer to the command, after what was pending and with the payload that R72 gives it. -/
def AnswersOk (s : State) (i : Instr) (r : Result) : Prop :=
  ∃ (s' : State) (payload : List Beat), s'.rsp = s.rsp ∧ payload.length = okPayloadCount s.variant i ∧
    r = s'.answer i.opcode payload

theorem answersOk_ifSeeded {s s' : State} {i : Instr} {payload : List Beat} (hs : s.seeded = true) (hrsp : s'.rsp = s.rsp)
    (hlen : payload.length = okPayloadCount s.variant i) : AnswersOk s i (s.ifSeeded i.opcode (s'.answer i.opcode payload)) :=
  ⟨s', payload, hrsp, hlen, if_pos hs⟩

/-- R121: LOAD_STATE of `N` words constructs. -/
theorem exec_loadState_of_length_eq {ws : List Beat} {s : State} (hlen : ws.length = s.variant.words) :
    exec (.loadState ws) s = (s.construct (Lattice.tabulate s.variant fun k => ws.getD k 0)).answer opcLoadState [] :=
  if_pos hlen

/-- R66, R72: an accepted command answers OK. -/
theorem exec_of_accepted {i : Instr} {s : State} (h : Accepted s i) : AnswersOk s i (exec i s) := by
  obtain ⟨hres, hload, hseed⟩ := h
  cases i with
  | loadState ws => exact ⟨_, [], State.construct_rsp _ _, rfl, exec_loadState_of_length_eq (hload ws rfl)⟩
  | readState => exact answersOk_ifSeeded (hseed rfl) rfl s.lattice.wordBeats_length
  | nextU32 => exact answersOk_ifSeeded (hseed rfl) (s.withLattice_rsp _) rfl
  | nextU64 => exact answersOk_ifSeeded (hseed rfl) (s.withLattice_rsp _) rfl
  | fillBytes n =>
    exact answersOk_ifSeeded (hseed rfl) (s.withLattice_rsp _) (by rw [byteBeats_length, fillBuffer_length, okPayloadCount])
  | seedU64 seed => exact ⟨_, [], State.construct_rsp _ _, rfl, rfl⟩
  | seedBytes bs => exact ⟨_, [], State.construct_rsp _ _, rfl, rfl⟩
  | step c => exact answersOk_ifSeeded (hseed rfl) (s.withLattice_rsp _) rfl
  | reserved opc => exact absurd rfl (hres opc)

/-- R67, R145: a command raises the one error that applies to it, or it is accepted. -/
theorem exec_status_cases (i : Instr) (s : State) :
    (∃ opc, i = .reserved opc ∧ exec i s = s.raise .illegalCmd i.opcode 0) ∨
    (∃ ws, i = .loadState ws ∧ ws.length ≠ s.variant.words ∧
      exec i s = s.raise .invalidLength i.opcode (BitVec.ofNat 32 s.variant.words)) ∨
    (needsSeed i = true ∧ s.seeded = false ∧ exec i s = s.raise .notSeeded i.opcode 0) ∨
    (Accepted s i ∧ AnswersOk s i (exec i s)) := by
  by_cases hres : ∃ opc, i = .reserved opc
  · obtain ⟨opc, rfl⟩ := hres
    exact .inl ⟨opc, rfl, rfl⟩
  by_cases hload : ∃ ws, i = .loadState ws ∧ ws.length ≠ s.variant.words
  · obtain ⟨ws, rfl, hlen⟩ := hload
    exact .inr (.inl ⟨ws, rfl, hlen, exec_loadState_of_length_ne hlen⟩)
  by_cases hseed : needsSeed i = true ∧ s.seeded = false
  · obtain ⟨hi, hs⟩ := hseed
    exact .inr (.inr (.inl ⟨hi, hs, exec_of_unseeded hi hs⟩))
  have haccepted : Accepted s i := by
    refine ⟨fun opc hi => hres ⟨opc, hi⟩, fun ws hi => ?_, fun hi => ?_⟩
    · by_contra hlen
      exact hload ⟨ws, hi, hlen⟩
    · by_contra hs
      exact hseed ⟨hi, Bool.eq_false_iff.2 hs⟩
  exact .inr (.inr (.inr ⟨haccepted, exec_of_accepted haccepted⟩))

/-- R73: but for a reserved command, no command has a reserved opcode; and LOAD_STATE alone has its own. -/
theorem reservedOpc_opcode {i : Instr} (hi : ∀ opc, i ≠ .reserved opc) :
    reservedOpc i.opcode = false ∧ (i.opcode = opcLoadState → ∃ ws, i = .loadState ws) := by
  cases i with
  | loadState ws => exact ⟨rfl, fun _ => ⟨ws, rfl⟩⟩
  | reserved opc => exact absurd rfl (hi opc)
  | readState => exact ⟨rfl, fun h => absurd h (show opcReadState ≠ opcLoadState by decide)⟩
  | nextU32 => exact ⟨rfl, fun h => absurd h (show opcNextU32 ≠ opcLoadState by decide)⟩
  | nextU64 => exact ⟨rfl, fun h => absurd h (show opcNextU64 ≠ opcLoadState by decide)⟩
  | fillBytes n => exact ⟨rfl, fun h => absurd h (show opcFillBytes ≠ opcLoadState by decide)⟩
  | seedU64 seed => exact ⟨rfl, fun h => absurd h (show opcSeedU64 ≠ opcLoadState by decide)⟩
  | seedBytes bs => exact ⟨rfl, fun h => absurd h (show opcSeedBytes ≠ opcLoadState by decide)⟩
  | step c => exact ⟨rfl, fun h => absurd h (show opcStep ≠ opcLoadState by decide)⟩

/-- A command that needs SEEDED is none of those that raise another error. -/
theorem not_reserved_nor_loadState_of_needsSeed {i : Instr} (hi : needsSeed i = true) :
    (∀ opc, i ≠ .reserved opc) ∧ ∀ ws, i ≠ .loadState ws := by
  refine ⟨?_, ?_⟩
  · rintro opc rfl
    cases hi
  · rintro ws rfl
    cases hi

/-- Settles O23: one case for each status. -/
theorem everyCommandGetsOneResponse : Obligations.EveryCommandGetsOneResponse := by
  intro i s t hw h
  obtain ⟨opc, rfl, hexec⟩ | ⟨ws, rfl, hlen, hexec⟩ | ⟨hi, hs, hexec⟩ |
    ⟨⟨hres, hload, hseed⟩, s', payload, hrsp, hlen, hexec⟩ := exec_status_cases i s
  · obtain rfl := (State.raise_eq_next _ _ _ _ _).1 (hexec.symm.trans h)
    refine ⟨_, _, rfl, responseHeader_ropc _ _ _, responseHeader_zero _ _ _, ?_, by simp [Status.code]⟩
    exact (responseHeader_status _ _ _).trans (if_pos hw).symm
  · obtain rfl := (State.raise_eq_next _ _ _ _ _).1 (hexec.symm.trans h)
    have hwrong : constructs s.variant (.loadState ws) = false := by simpa [constructs] using hlen
    refine ⟨_, _, rfl, responseHeader_ropc _ _ _, responseHeader_zero _ _ _, ?_,
      by simpa [Status.code] using words_lt s.variant⟩
    rw [responseHeader_status, Instr.opcode, if_neg (by decide), if_pos ⟨rfl, hwrong⟩]
    rfl
  · obtain rfl := (State.raise_eq_next _ _ _ _ _).1 (hexec.symm.trans h)
    obtain ⟨hnotReserved, hnotLoad⟩ := not_reserved_nor_loadState_of_needsSeed hi
    obtain ⟨hopc, hloads⟩ := reservedOpc_opcode hnotReserved
    have hop : i.opcode ≠ opcLoadState := fun hop => (hloads hop).elim hnotLoad
    refine ⟨_, _, rfl, responseHeader_ropc _ _ _, responseHeader_zero _ _ _, ?_, by simp [Status.code]⟩
    rw [responseHeader_status, if_neg (by simp [hopc]), if_neg (fun hwrong => hop hwrong.1), if_pos ⟨hi, hs⟩]
    rfl
  · obtain rfl := (State.answer_eq_next _ _ _ _).1 (hexec.symm.trans h)
    obtain ⟨hopc, hloads⟩ := reservedOpc_opcode hres
    have hlength : ¬ (i.opcode = 0x01#8 ∧ constructs s.variant i = false) := by
      rintro ⟨hop, hwrong⟩
      obtain ⟨ws, rfl⟩ := hloads hop
      simp [constructs, hload ws rfl] at hwrong
    refine ⟨_, payload, by rw [State.respond_rsp, hrsp], responseHeader_ropc _ _ _, responseHeader_zero _ _ _, ?_,
      by simpa [Status.code, hlen] using okPayloadCount_lt s.variant i⟩
    rw [responseHeader_status, if_neg (by simp [hopc]), if_neg hlength, if_neg (fun hno => by simp [hseed hno.1] at hno)]
    rfl

/-- What follows the pending response beats is fixed by the state. -/
theorem header_payload_unique {s t : State} {h h' : Beat} {ps ps' : List Beat} (ht : t.rsp = s.rsp ++ h :: ps)
    (ht' : t.rsp = s.rsp ++ h' :: ps') : h = h' ∧ ps = ps' :=
  List.cons.inj (List.append_cancel_left (ht.symm.trans ht'))

/-- An error response has a status that is not OK, and no payload. -/
theorem payload_of_raise {s t : State} {st : Status} {opc : Byte} {info : Word32} {h : Beat} {ps : List Beat}
    (hst : st ≠ .ok) (hr : s.raise st opc info = .next t) (ht : t.rsp = s.rsp ++ h :: ps) :
    h.extractLsb' 0 8 ≠ 0x00#8 ∧ ps = [] := by
  obtain rfl := (s.raise_eq_next st opc info t).1 hr
  obtain ⟨rfl, rfl⟩ := header_payload_unique ht (s.respond_rsp st opc info [])
  exact ⟨fun h0 => hst (st.code_eq_zero.1 ((responseHeader_status st opc info).symm.trans h0)), rfl⟩

/-- A command that raises an error answers a status that is not OK, and no payload (R72). -/
theorem response_not_ok_or_answersOk {i : Instr} {s t : State} {h : Beat} {ps : List Beat} (hexec : exec i s = .next t)
    (ht : t.rsp = s.rsp ++ h :: ps) : (h.extractLsb' 0 8 ≠ 0x00#8 ∧ ps = []) ∨ AnswersOk s i (.next t) := by
  obtain ⟨opc, rfl, hr⟩ | ⟨ws, rfl, -, hr⟩ | ⟨-, -, hr⟩ | ⟨-, hok⟩ := exec_status_cases i s
  · exact .inl (payload_of_raise (by decide) (hr.symm.trans hexec) ht)
  · exact .inl (payload_of_raise (by decide) (hr.symm.trans hexec) ht)
  · exact .inl (payload_of_raise (by decide) (hr.symm.trans hexec) ht)
  · exact .inr (hexec ▸ hok)

/-- Settles O24: an error has no payload, and an accepted command has the one that R72 gives it. -/
theorem payloadCountOfAResponse : Obligations.PayloadCountOfAResponse := by
  intro i s t h payload hexec ht
  obtain ⟨hstatus, hnil⟩ | ⟨s', payload', hrsp, hlen, hanswer⟩ := response_not_ok_or_answersOk hexec ht
  · exact ⟨fun _ => hnil, fun hok => absurd hok hstatus⟩
  · obtain rfl := (State.answer_eq_next _ _ _ _).1 hanswer.symm
    obtain ⟨rfl, rfl⟩ := header_payload_unique ht (by rw [State.respond_rsp, hrsp])
    refine ⟨fun hstatus => absurd (responseHeader_status _ _ _) hstatus, fun _ => ⟨?_, hlen.trans (by cases i <;> rfl)⟩⟩
    rw [responseHeader_info, BitVec.toNat_ofNat, Nat.mod_eq_of_lt (hlen ▸ okPayloadCount_lt s.variant i)]

/-! ### LOAD_STATE -/

/-- The INVALID_LENGTH header of each variant (R66, R141). -/
theorem responseHeader_invalidLength (v : Variant) :
    responseHeader .invalidLength opcLoadState (BitVec.ofNat 32 v.words) =
      (BitVec.ofNat 64 v.words <<< 32) ||| 0x0101#64 := by
  cases v <;> decide

/-- Settles O31: the `S` that is installed is tabulated from the beats. -/
theorem loadStateInstallsTheWordsExactly : Obligations.LoadStateInstallsTheWordsExactly := by
  intro s ws
  refine ⟨fun hlen => ?_, fun hlen => ?_⟩
  · have hheader : responseHeader .ok opcLoadState 0 = 0x0100#64 := by decide
    have hexec := exec_loadState_of_length_eq hlen
    obtain ⟨hsame, -⟩ := commandsTouchOnlyTheEngineAndItsResponse _ s _ hexec
    refine ⟨_, hexec, rfl, hsame, congrArg (s.rsp ++ [·]) hheader, ?_, fun k hk => ?_⟩
    · simp
    · rw [State.respond_lattice, State.construct_lattice, Lattice.word_tabulate_toNat _ _ k hk]
  · rw [exec_loadState_of_length_ne hlen, State.raise, State.respond, responseHeader_invalidLength]

end Sys2Proof.Machine
end

section
/-! PROOF. The transitions word by word and bit by bit (R81 to R90): the compact Rule 30, the alignment, the two ECA cell rules
on the ring of 80 words, and arrays of equal words. -/

namespace Sys2Proof.Machine

/-! ### Rule 30 -/

/-- R82: the one word of R30C takes the word step of R81, with no boundary step. -/
theorem r30cStep_singleton (x : Word32) : r30cStep #v[x] = #v[rule30w x] := rfl

/-- Settles O38. -/
theorem compactTransitionIsRule30WithZeroShiftIn : Obligations.CompactTransitionIsRule30WithZeroShiftIn := fun x =>
  ⟨rule30w x, congrArg Lattice.r30c (r30cStep_singleton x), rule30w_getLsbD x⟩

/-- Settles O39: a word of the array is the word of the ring at its index. -/
theorem alignmentRebuildsTheStagingBits : Obligations.AlignmentRebuildsTheStagingBits := by
  intro s k j hj
  rw [← at9_val, at9_r30pAlign_getLsbD s k.val j hj, at9_val]
  rfl

/-! ### The ring of 80 words -/

theorem at80_val (s : Vector Word64 80) (i : Fin 80) : at80 s i.val = s[i] := by
  simp [at80, Nat.mod_eq_of_lt i.isLt]

@[simp] theorem at80_add_80 (s : Vector Word64 80) (i : Nat) : at80 s (i + 80) = at80 s i := by
  simp [at80]

@[simp] theorem at80_replicate (x : Word64) (i : Nat) : at80 (Vector.replicate 80 x) i = x := by
  simp [at80]

/-- R84, R87: a word of the ECA1 transition, from the ring. -/
theorem eca1Step_getElem (s : Vector Word64 80) (i : Fin 80) :
    (eca1Step s)[i] = eca1Cell (at80 s (i.val + 79)) (at80 s i.val) (at80 s (i.val + 1)) := by
  simp [eca1Step, halo1]

/-- R84, R88: a word of the ECA2 transition, from the ring. -/
theorem eca2Step_getElem (s : Vector Word64 80) (i : Fin 80) :
    (eca2Step s)[i] =
      eca2Cell (at80 s (i.val + 78)) (at80 s (i.val + 79)) (at80 s i.val) (at80 s (i.val + 1)) (at80 s (i.val + 2)) := by
  simp [eca2Step, halo2]

/-- R87: lane `l` of an ECA1 cell reads lanes `l` and `(l - 3) mod 64` of its neighbours. -/
theorem eca1Cell_getLsbD (x c y : Word64) {l : Nat} (hl : l < 64) :
    (eca1Cell x c y).getLsbD l =
      Bool.xor (Bool.xor (x.getLsbD l || x.getLsbD ((l + 61) % 64)) (c.getLsbD l))
        (y.getLsbD l || y.getLsbD ((l + 61) % 64)) := by
  have hrotl (a : Word64) : (rotl a rotAmount).getLsbD l = a.getLsbD ((l + 61) % 64) := rotl_getLsbD a rotAmount l hl
  simp only [eca1Cell, BitVec.getLsbD_xor, BitVec.getLsbD_or, hrotl]

/-- Settles O43. -/
theorem ecaOneTransitionPerLane : Obligations.EcaOneTransitionPerLane := by
  rintro s i l _ _ hl rfl rfl
  rw [eca1Step_getElem, eca1Cell_getLsbD _ _ _ hl, at80_val]
  rfl

/-- Settles O44. -/
theorem ecaTwoTransitionPerWord : Obligations.EcaTwoTransitionPerWord := by
  intro s i
  rw [eca2Step_getElem, at80_val]
  rfl

/-! ### The lanes of ECA2 -/

/-- R89: a lane of an ECA2 cell reads that lane alone. -/
theorem eca2Cell_getLsbD (l2 l1 c r1 r2 : Word64) (l : Nat) :
    (eca2Cell l2 l1 c r1 r2).getLsbD l =
      Bool.xor (Bool.xor (l2.getLsbD l || l1.getLsbD l) (c.getLsbD l)) (r1.getLsbD l || r2.getLsbD l) := by
  simp only [eca2Cell, BitVec.getLsbD_xor, BitVec.getLsbD_or]

/-- The two arrays agree in lane `l` of every word. -/
def SameLane (l : Nat) (a b : Vector Word64 80) : Prop := ∀ k : Fin 80, a[k].getLsbD l = b[k].getLsbD l

theorem SameLane.at80 {l : Nat} {a b : Vector Word64 80} (h : SameLane l a b) (i : Nat) :
    (at80 a i).getLsbD l = (at80 b i).getLsbD l := h ⟨i % 80, Nat.mod_lt _ (by decide)⟩

theorem SameLane.eca2Step {l : Nat} {a b : Vector Word64 80} (h : SameLane l a b) :
    SameLane l (eca2Step a) (eca2Step b) := fun k => by
  simp only [eca2Step_getElem, eca2Cell_getLsbD, h.at80]

/-- Settles O45, by induction on the number of transitions. -/
theorem ecaTwoLanesNeverInteract : Obligations.EcaTwoLanesNeverInteract := by
  intro n l a b h
  induction n generalizing a b with
  | zero => exact h
  | succ n ih => exact ih _ _ (SameLane.eca2Step h)

/-! ### Arrays of equal words -/

/-- Both neighbourhoods of a cell give the same word `a`, and leave the cell as it was. -/
theorem xor_xor_cancel (a c : Word64) : (a ^^^ c) ^^^ a = c := by
  rw [BitVec.xor_comm a c, BitVec.xor_assoc, BitVec.xor_self, BitVec.xor_zero]

theorem eca1Step_replicate (x : Word64) : eca1Step (Vector.replicate 80 x) = Vector.replicate 80 x := by
  ext1 k hk
  have hcell : eca1Cell x x x = x := xor_xor_cancel (x ||| rotl x rotAmount) x
  have hword := eca1Step_getElem (Vector.replicate 80 x) ⟨k, hk⟩
  simpa [hcell] using hword

theorem eca2Step_replicate (x : Word64) : eca2Step (Vector.replicate 80 x) = Vector.replicate 80 x := by
  ext1 k hk
  have hcell : eca2Cell x x x x x = x := xor_xor_cancel (x ||| x) x
  have hword := eca2Step_getElem (Vector.replicate 80 x) ⟨k, hk⟩
  simpa [hcell] using hword

/-- The alignment of a word whose neighbours are equal to it (R83). -/
def alignWord (x : Word32) : Word32 := ((x &&& nativeMask) ||| (bitAt x 1 <<< 30)) ||| bitAt x 29

theorem r30pAlign_replicate (x : Word32) : r30pAlign (Vector.replicate 9 x) = Vector.replicate 9 (alignWord x) := by
  ext1 k hk
  simp [r30pAlign, at9, alignWord]

theorem r30pCells_replicate (x : Word32) :
    r30pCells (Vector.replicate 9 x) = Vector.replicate 9 (rule30w x &&& nativeMask) := by
  ext1 k hk
  simp [r30pCells]

/-- R90: on equal words the packed transition is one function of the word. -/
theorem r30pStep_replicate (x : Word32) :
    r30pStep (Vector.replicate 9 x) = Vector.replicate 9 (alignWord (rule30w (alignWord x) &&& nativeMask)) := by
  rw [r30pStep, r30pAlign_replicate, r30pCells_replicate, r30pAlign_replicate]

/-- The all-zero `S` of a variant. -/
def zeroLattice (v : Variant) : Lattice := Lattice.tabulate v fun _ => 0

theorem zeroLattice_r30p : zeroLattice .r30p = .r30p (Vector.replicate 9 0) := by
  simp [zeroLattice, Lattice.tabulate, Vector.ext_iff]

theorem zeroLattice_r30c : zeroLattice .r30c = .r30c (Vector.replicate 1 0) := rfl

theorem zeroLattice_eca1 : zeroLattice .eca1 = .eca1 (Vector.replicate 80 0) := by
  simp [zeroLattice, Lattice.tabulate, Vector.ext_iff]

theorem zeroLattice_eca2 : zeroLattice .eca2 = .eca2 (Vector.replicate 80 0) := by
  simp [zeroLattice, Lattice.tabulate, Vector.ext_iff]

theorem r30pStep_zero : r30pStep (Vector.replicate 9 0) = Vector.replicate 9 0 := by
  rw [r30pStep_replicate, show alignWord (rule30w (alignWord 0) &&& nativeMask) = 0 by decide]

theorem r30cStep_zero : r30cStep (Vector.replicate 1 0) = Vector.replicate 1 0 := by decide

theorem transition_zeroLattice (v : Variant) : transition (zeroLattice v) = zeroLattice v := by
  cases v with
  | r30p => rw [zeroLattice_r30p, transition, r30pStep_zero]
  | r30c => rw [zeroLattice_r30c, transition, r30cStep_zero]
  | eca1 => rw [zeroLattice_eca1, transition, eca1Step_replicate]
  | eca2 => rw [zeroLattice_eca2, transition, eca2Step_replicate]

/-- Settles O46. -/
theorem equalWordsStayEqual : Obligations.EqualWordsStayEqual :=
  ⟨eca1Step_replicate, eca2Step_replicate, fun x => ⟨_, r30pStep_replicate x⟩, transition_zeroLattice⟩

end Sys2Proof.Machine
end

section
/-! PROOF. STEP (R92). -/

namespace Sys2Proof.Machine

theorem exec_step_of_seeded {s : State} (hs : s.seeded = true) (c : Word32) :
    exec (.step c) s = .next { s with lattice := transition^[c.toNat] s.lattice, rsp := s.rsp ++ [0x0800#64] } := by
  rw [← advance_eq_iterate]
  exact ifSeeded_answer_of_seeded hs (by rw [List.length_nil]; decide)

theorem step_lattice_seeded {s t : State} {c : Word32} (hs : s.seeded = true) (h : exec (.step c) s = .next t) :
    t.lattice = transition^[c.toNat] s.lattice ∧ t.seeded = true := by
  obtain rfl := Host.Outcome.next.inj ((exec_step_of_seeded hs c).symm.trans h)
  exact ⟨rfl, hs⟩

/-- Settles O47: the transitions of two STEPs are one iteration of the sum. -/
theorem stepAdvancesByItsCount : Obligations.StepAdvancesByItsCount := by
  refine ⟨fun s c hs => exec_step_of_seeded hs c, fun s t u w a b c hs hsum ht hu hw => ?_⟩
  obtain ⟨htl, hts⟩ := step_lattice_seeded hs ht
  obtain ⟨hul, -⟩ := step_lattice_seeded hts hu
  obtain ⟨hwl, -⟩ := step_lattice_seeded hs hw
  rw [hul, htl, hwl, hsum, Nat.add_comm, Function.iterate_add_apply]

end Sys2Proof.Machine
end

section
/-! PROOF. The outputs of an all-zero `S` (R108): every native word is 0 and leaves `S` as it is. -/

namespace Sys2Proof.Machine

/-! ### The gathers of zero words -/

theorem gatherRound_zero (n marker : Nat) : gatherRound marker (Vector.replicate n (0 : Word32)) 0 = 0 := by
  have hread : rotl (0 : Word32) 1 ||| bitAt (0 : Word32) marker = 0 := by
    simp [rotl, bitAt]
  rw [gatherRound, Vector.toList_replicate]
  induction n with
  | zero => rfl
  | succ n ih => rw [List.replicate_succ, List.foldl_cons, hread, ih]

/-- Zero words that a transition keeps give 0, after any number of rounds. -/
theorem r30Native_zero {n : Nat} {next : Vector Word32 n → Vector Word32 n} (marker rounds : Nat)
    (hnext : next (Vector.replicate n 0) = Vector.replicate n 0) :
    r30Native next marker rounds (Vector.replicate n 0) = (0, Vector.replicate n 0) := by
  rw [r30Native]
  induction rounds with
  | zero => rfl
  | succ r ih => rw [gatherRounds, gatherRound_zero, hnext, ih]

theorem eca1Gather_zero (b : Build) : eca1Gather b (Vector.replicate 80 0) = 0 := by
  rw [eca1Gather]
  induction b.xIdx.toList with
  | nil => rfl
  | cons idx idxs ih => simpa using ih

theorem eca2Gather_zero (b : Build) : eca2Gather b (Vector.replicate 80 0) = 0 := by
  rw [eca2Gather]
  induction b.xIdx.toList with
  | nil => rfl
  | cons idx idxs ih => simpa using ih

/-- The native word of value 0. -/
def NativeWord.zero : Variant → NativeWord
  | .r30p => .w32 0
  | .r30c => .w32 0
  | .eca1 => .w64 0
  | .eca2 => .w64 0

@[simp] theorem NativeWord.zero_low32 (v : Variant) : (NativeWord.zero v).low32 = 0 := by
  cases v <;> rfl

@[simp] theorem NativeWord.zero_byte (v : Variant) (j : Nat) : (NativeWord.zero v).byte j = 0 := by
  cases v <;> exact BitVec.extractLsb'_zero ..

/-- R90, R108: whatever the parameters, NATIVE of an all-zero `S` is 0 and keeps it. -/
theorem native_zeroLattice (b : Build) (v : Variant) : native b (zeroLattice v) = (NativeWord.zero v, zeroLattice v) := by
  cases v with
  | r30p => rw [zeroLattice_r30p, native, r30Native_zero _ _ r30pStep_zero, NativeWord.zero]
  | r30c => rw [zeroLattice_r30c, native, r30Native_zero _ _ r30cStep_zero, NativeWord.zero]
  | eca1 => rw [zeroLattice_eca1, native, eca1Gather_zero, eca1Step_replicate, NativeWord.zero]
  | eca2 => rw [zeroLattice_eca2, native, eca2Gather_zero, eca2Step_replicate, NativeWord.zero]

/-! ### The output commands -/

theorem nextU64Value_zeroLattice (b : Build) (v : Variant) : nextU64Value b (zeroLattice v) = (0, zeroLattice v) := by
  cases v with
  | r30p => simp [nextU64Value_of_narrow b (.inl rfl : (zeroLattice .r30p).variant = .r30p ∨ _), native_zeroLattice]
  | r30c => simp [nextU64Value_of_narrow b (.inr rfl : _ ∨ (zeroLattice .r30c).variant = .r30c), native_zeroLattice]
  | eca1 => rw [nextU64Value, native_zeroLattice, NativeWord.zero]
  | eca2 => rw [nextU64Value, native_zeroLattice, NativeWord.zero]

theorem afterNatives_zeroLattice (b : Build) (k : Nat) (v : Variant) :
    afterNatives b k (zeroLattice v) = zeroLattice v := by
  induction k with
  | zero => rfl
  | succ k ih => rw [afterNatives, native_zeroLattice, ih]

theorem fillBuffer_zeroLattice_lattice (b : Build) (nbytes : Nat) (v : Variant) :
    (fillBuffer b nbytes (zeroLattice v)).2 = zeroLattice v := by
  rw [fillBuffer_eq, afterNatives_zeroLattice]

theorem fillBuffer_zeroLattice_getD (b : Build) (nbytes : Nat) (v : Variant) (k : Nat) :
    (fillBuffer b nbytes (zeroLattice v)).1.getD k 0 = 0 := by
  rw [fillBuffer_getD, afterNatives_zeroLattice, native_zeroLattice, NativeWord.zero_byte, ite_self]

/-- Zero bytes travel as zero beats (R69). -/
theorem eq_zero_of_mem_byteBeats {bs : List Byte} (hbs : ∀ k, bs.getD k 0 = 0) {beat : Beat} (hbeat : beat ∈ byteBeats bs) :
    beat = 0 := by
  obtain ⟨i, -, rfl⟩ := List.mem_map.1 hbeat
  simp only [hbs]
  decide

/-- Settles O59: the commands read native words, and all of them are 0. -/
theorem zeroLatticeOutputsZeroForever : Obligations.ZeroLatticeOutputsZeroForever := by
  intro s hs hzero
  have hlattice : s.lattice = zeroLattice s.variant := hzero
  refine ⟨?_, ?_, fun n => ⟨byteBeats (fillBuffer s.build n.toNat s.lattice).1, fun beat hbeat => ?_, ?_⟩⟩
  · have hnative : native s.build s.lattice = (NativeWord.zero s.variant, s.lattice) := by
      rw [hlattice, native_zeroLattice]
    rw [exec_nextU32_of_seeded hs, hnative, NativeWord.zero_low32]
    rfl
  · have hvalue : nextU64Value s.build s.lattice = (0, s.lattice) := by rw [hlattice, nextU64Value_zeroLattice]
    rw [exec_nextU64_of_seeded hs, hvalue]
  · rw [hlattice] at hbeat
    exact eq_zero_of_mem_byteBeats (fillBuffer_zeroLattice_getD _ _ _) hbeat
  · have hafter : (fillBuffer s.build n.toNat s.lattice).2 = s.lattice := by
      rw [hlattice, fillBuffer_zeroLattice_lattice]
    rw [exec_fillBytes_of_seeded hs, hafter]

end Sys2Proof.Machine
end

section
/-! PROOF. The 2-cycle of R30C (R82, R108): both of its words hold a 1 in bit 1, so every round gathers a 1. -/

namespace Sys2Proof.Machine

/-- `x` is on the 2-cycle of R82. -/
def OnTwoCycle (x : Word32) : Prop := x = 0xAAAAAAAA#32 ∨ x = 0xAAAAAAAB#32

theorem OnTwoCycle.rule30w {x : Word32} (h : OnTwoCycle x) : OnTwoCycle (rule30w x) := by
  obtain rfl | rfl := h
  · exact .inr (by decide)
  · exact .inl (by decide)

/-- Shift a gathered 1 into the accumulator (R101). -/
def gatherOne (acc : Word32) : Word32 := rotl acc 1 ||| 1

/-- The first rounds fill the accumulator with ones from below. -/
theorem gatherOne_iterate_getLsbD {rounds j : Nat} (hr : rounds ≤ 32) (hj : j < 32) :
    (gatherOne^[rounds] 0).getLsbD j = decide (j < rounds) := by
  induction rounds generalizing j with
  | zero => simp
  | succ r ih =>
    rw [Function.iterate_succ_apply', gatherOne, BitVec.getLsbD_or, rotl_getLsbD _ 1 j hj, ih (by omega) (by omega)]
    obtain rfl | hpos := Nat.eq_zero_or_pos j
    · simp
    · rw [show (j + (32 - 1 % 32)) % 32 = j - 1 by omega, show (1 : Word32) = 1#32 from rfl, BitVec.getLsbD_one]
      simp [show j ≠ 0 by omega]
      omega

theorem gatherOne_iterate_29 : gatherOne^[29] 0 = 0x1FFFFFFF#32 := by
  refine BitVec.eq_of_getLsbD_eq fun j hj => ?_
  rw [gatherOne_iterate_getLsbD (by decide) hj]
  revert j
  decide

/-- With MARKER_C = 1 a round on the 2-cycle gathers a 1. -/
theorem OnTwoCycle.gatherRound {x : Word32} (h : OnTwoCycle x) (acc : Word32) :
    gatherRound 1 #v[x] acc = gatherOne acc := by
  have hbit : bitAt x 1 = 1 := by obtain rfl | rfl := h <;> decide
  exact congrArg (rotl acc 1 ||| ·) hbit

/-- On the 2-cycle every round gathers a 1, and the word stays on the cycle. -/
theorem OnTwoCycle.gatherRounds {x : Word32} (h : OnTwoCycle x) (rounds : Nat) (acc : Word32) :
    ∃ y, OnTwoCycle y ∧ gatherRounds r30cStep 1 rounds acc #v[x] = (gatherOne^[rounds] acc, #v[y]) := by
  induction rounds generalizing x acc with
  | zero => exact ⟨x, h, rfl⟩
  | succ r ih =>
    obtain ⟨y, hy, hrounds⟩ := ih h.rule30w (gatherOne acc)
    exact ⟨y, hy, by rw [Machine.gatherRounds, h.gatherRound, r30cStep_singleton, hrounds, Function.iterate_succ_apply]⟩

/-- Settles O60: 29 gathered ones, above them the zeros that the accumulator began with. -/
theorem compactAttractorOutputsAllOnes : Obligations.CompactAttractorOutputsAllOnes := by
  intro s x hs hmarker hrounds hlattice hx
  obtain ⟨y, hy, hgather⟩ := OnTwoCycle.gatherRounds hx 29 0
  have hnative : native s.build s.lattice = (.w32 0x1FFFFFFF#32, .r30c #v[y]) := by
    rw [hlattice, native, hmarker, hrounds, r30Native, show (1 : Fin 32).val = 1 from rfl, hgather,
      gatherOne_iterate_29]
  refine ⟨y, hy, ?_⟩
  rw [exec_nextU32_of_seeded hs, hnative]
  rfl

end Sys2Proof.Machine
end

section
/-! PROOF. The rolling gather (R100, R101): the bits that were gathered, where they stand in the accumulator, and NEXT_U32 of the
32-bit engines. -/

namespace Sys2Proof.Machine

/-! ### The gather in closed form -/

/-- The accumulator `acc` holds the first `T` of the gathered bits `b`: each was rotated left once for every bit after it, and
bits that meet are ORed (R101). -/
def Holds (acc : Word32) (T : Nat) (b : Nat → Bool) : Prop :=
  ∀ p, p < 32 → (acc.getLsbD p = true ↔ ∃ i, i < T ∧ (T - 1 - i) % 32 = p ∧ b i = true)

theorem holds_zero (b : Nat → Bool) : Holds 0 0 b := fun p _ => by simp

/-- One read of R101 rotates the bits that are there by one place and puts the next one at the bottom. -/
theorem Holds.read {acc : Word32} {T : Nat} {b : Nat → Bool} (h : Holds acc T b) {w : Word32} {marker : Nat}
    (hw : w.getLsbD marker = b T) : Holds (rotl acc 1 ||| bitAt w marker) (T + 1) b := by
  intro p hp
  have hrotated : (rotl acc 1).getLsbD p = acc.getLsbD ((p + 31) % 32) := rotl_getLsbD acc 1 p hp
  have holder : (∃ i, i < T ∧ (T - 1 - i) % 32 = (p + 31) % 32 ∧ b i = true) ↔
      ∃ i, i < T ∧ (T + 1 - 1 - i) % 32 = p ∧ b i = true :=
    exists_congr fun i => and_congr_right fun hi => and_congr_left fun _ => by omega
  have hlast : (decide (p = 0) && b T) = true ↔ (T + 1 - 1 - T) % 32 = p ∧ b T = true := by
    rw [Bool.and_eq_true, decide_eq_true_eq]
    exact and_congr_left fun _ => by omega
  rw [BitVec.getLsbD_or, Bool.or_eq_true, hrotated, h _ (by omega), holder, bitAt_getLsbD, hw, hlast, Nat.exists_lt_succ_right]

/-- The reads of a list of words, in order, gather their marker bits. -/
theorem Holds.foldl {b : Nat → Bool} {marker : Nat} (ws : List Word32) {acc : Word32} {T : Nat} (h : Holds acc T b)
    (hws : ∀ k, k < ws.length → (ws.getD k 0).getLsbD marker = b (T + k)) :
    Holds (ws.foldl (fun acc w => rotl acc 1 ||| bitAt w marker) acc) (T + ws.length) b := by
  induction ws generalizing acc T with
  | nil => exact h
  | cons w ws ih =>
    have hfirst : w.getLsbD marker = b T := hws 0 (Nat.succ_pos _)
    rw [List.length_cons, ← Nat.succ_add_eq_add_succ]
    refine ih (h.read hfirst) fun k hk => ?_
    rw [Nat.succ_add_eq_add_succ]
    exact hws (k + 1) (Nat.succ_lt_succ hk)

/-- A round reads one bit of each word, in ascending order. -/
theorem Holds.gatherRound {n : Nat} {acc : Word32} {T : Nat} {b : Nat → Bool} (h : Holds acc T b) {marker : Nat}
    {s : Vector Word32 n} (hs : ∀ k, k < n → (s.toList.getD k 0).getLsbD marker = b (T + k)) :
    Holds (gatherRound marker s acc) (T + n) b := by
  have hlen : s.toList.length = n := s.length_toList
  have hfold := h.foldl (marker := marker) s.toList (by rwa [hlen])
  rwa [hlen] at hfold

/-- R101: gathered bit `r * n + k` is the marker bit of word `k` after `r` transitions. -/
theorem gatherBit_round {n : Nat} (next : Vector Word32 n → Vector Word32 n) (marker : Nat) (s : Vector Word32 n) (r : Nat)
    {k : Nat} (hk : k < n) :
    gatherBit next marker s (r * n + k) = ((next^[r] s).toList.getD k 0).getLsbD marker := by
  rw [gatherBit, Nat.add_comm, Nat.add_mul_div_right k r (by omega), Nat.add_mul_mod_self_right, Nat.div_eq_of_lt hk,
    Nat.mod_eq_of_lt hk, Nat.zero_add]

/-- After `r` rounds from `s`, the rounds that follow go on with the gather order of `s`. -/
theorem Holds.gatherRounds {n : Nat} {next : Vector Word32 n → Vector Word32 n} {marker : Nat} {s : Vector Word32 n}
    (rounds r : Nat) {acc : Word32} (h : Holds acc (r * n) (gatherBit next marker s)) :
    Holds (gatherRounds next marker rounds acc (next^[r] s)).1 ((r + rounds) * n) (gatherBit next marker s) := by
  induction rounds generalizing r acc with
  | zero => exact h
  | succ rounds ih =>
    have hround : Holds (Machine.gatherRound marker (next^[r] s) acc) ((r + 1) * n) (gatherBit next marker s) := by
      rw [Nat.succ_mul]
      exact h.gatherRound fun k hk => (gatherBit_round next marker s r hk).symm
    rw [Machine.gatherRounds, ← Function.iterate_succ_apply' next, ← Nat.succ_add_eq_add_succ]
    exact ih (r + 1) hround

/-- R101: each round is followed by one transition. -/
theorem gatherRounds_array {n : Nat} (next : Vector Word32 n → Vector Word32 n) (marker rounds : Nat) (acc : Word32)
    (s : Vector Word32 n) : (gatherRounds next marker rounds acc s).2 = next^[rounds] s := by
  induction rounds generalizing acc s with
  | zero => rfl
  | succ rounds ih => rw [gatherRounds, ih, Function.iterate_succ_apply]

theorem r30Native_array {n : Nat} (next : Vector Word32 n → Vector Word32 n) (marker rounds : Nat) (s : Vector Word32 n) :
    (r30Native next marker rounds s).2 = next^[rounds] s :=
  gatherRounds_array next marker rounds 0 s

theorem holds_r30Native {n : Nat} (next : Vector Word32 n → Vector Word32 n) (marker rounds : Nat) (s : Vector Word32 n) :
    Holds (r30Native next marker rounds s).1 (rounds * n) (gatherBit next marker s) := by
  have hstart : Holds 0 (0 * n) (gatherBit next marker s) := by
    rw [Nat.zero_mul]
    exact holds_zero _
  have hall := Holds.gatherRounds rounds 0 hstart
  rwa [Nat.zero_add] at hall

/-- Settles O48: every read keeps what the accumulator holds. -/
theorem rollingGatherClosedForm : Obligations.RollingGatherClosedForm := fun _ next marker rounds s =>
  ⟨r30Native_array next marker rounds s, holds_r30Native next marker rounds s⟩

/-! ### NEXT_U32 on the 32-bit engines -/

/-- Of at most 64 gathered bits, at most two meet at a position: the one gathered `p` reads before the last, and the one 32
reads before that. -/
theorem Holds.getLsbD {acc : Word32} {T : Nat} {b : Nat → Bool} (h : Holds acc T b) (hT : T ≤ 64) {p : Nat} (hp : p < 32) :
    acc.getLsbD p = ((decide (p < T) && b (T - 1 - p)) || (decide (p + 32 < T) && b (T - 33 - p))) := by
  rw [Bool.eq_iff_iff, h p hp]
  simp only [Bool.or_eq_true, Bool.and_eq_true, decide_eq_true_eq]
  constructor
  · rintro ⟨i, hi, hpos, hb⟩
    obtain rfl | rfl : i = T - 1 - p ∨ i = T - 33 - p := by omega
    · exact .inl ⟨by omega, hb⟩
    · by_cases hlate : p + 32 < T
      · exact .inr ⟨hlate, hb⟩
      · exact .inl ⟨by omega, by rwa [show T - 1 - p = T - 33 - p by omega]⟩
  · rintro (⟨hlt, hb⟩ | ⟨hlt, hb⟩)
    · exact ⟨_, by omega, by omega, hb⟩
    · exact ⟨_, by omega, by omega, hb⟩

/-- R9, R101: an R30P word is gathered in 4 rounds of nine bits, whatever the marker. -/
theorem native_r30p (b : Build) (a : Vector Word32 9) :
    native b (.r30p a) = (.w32 (r30Native r30pStep b.markerP.val 4 a).1, .r30p (r30pStep^[4] a)) := by
  rw [← r30Native_array r30pStep b.markerP.val 4 a]
  rfl

/-- R101: an R30C word is gathered in `ROUND_C` rounds of one bit. -/
theorem native_r30c (b : Build) (a : Vector Word32 1) :
    native b (.r30c a) = (.w32 (r30Native r30cStep b.markerC.val b.roundC a).1, .r30c (r30cStep^[b.roundC] a)) := by
  rw [← r30Native_array r30cStep b.markerC.val b.roundC a]
  rfl

/-- Settles O49: of the 36 gathered bits, the last four meet the first four. -/
theorem nextU32OnPackedGathers36Bits : Obligations.NextU32OnPackedGathers36Bits := by
  intro s a hs hl
  have hbits {p : Nat} (hp : p < 32) := (holds_r30Native r30pStep s.build.markerP.val 4 a).getLsbD (by decide) hp
  refine ⟨(r30Native r30pStep s.build.markerP.val 4 a).1, ?_, fun p hlow hp => ?_, fun p hp => ?_⟩
  · rw [exec_nextU32_of_seeded hs, hl, native_r30p, NativeWord.low32]
  · rw [hbits hp, decide_eq_true (by omega), decide_eq_false (by omega), Bool.true_and, Bool.false_and, Bool.or_false]
  · rw [hbits (by omega), decide_eq_true (by omega), decide_eq_true (by omega), Bool.true_and, Bool.true_and]

/-- The 29 gathered bits of an R30C word stand below three zeros. -/
theorem r30Native_29_getLsbD (marker : Nat) (a : Vector Word32 1) (p : Nat) :
    (r30Native r30cStep marker 29 a).1.getLsbD p = (decide (p < 29) && gatherBit r30cStep marker a (28 - p)) := by
  by_cases hp : p < 32
  · rw [(holds_r30Native r30cStep marker 29 a).getLsbD (by decide) hp, Nat.mul_one, decide_eq_false (by omega : ¬ p + 32 < 29),
      Bool.false_and, Bool.or_false]
  · rw [BitVec.getLsbD_of_ge _ _ (by omega), decide_eq_false (by omega), Bool.false_and]

/-- Settles O50. -/
theorem nextU32OnCompactGathers29Bits : Obligations.NextU32OnCompactGathers29Bits := by
  intro s a hs hl hround
  refine ⟨(r30Native r30cStep s.build.markerC.val 29 a).1, ?_, fun p hp => ?_, fun p hp => ?_⟩
  · rw [exec_nextU32_of_seeded hs, hl, native_r30c, hround, NativeWord.low32]
  · rw [r30Native_29_getLsbD, decide_eq_true hp, Bool.true_and]
  · rw [r30Native_29_getLsbD, decide_eq_false (by omega), Bool.false_and]

end Sys2Proof.Machine
end

section
/-! PROOF. The outputs of ECA1 and ECA2 (R102, R103, R105, R106): one native word, whole or its low half. -/

namespace Sys2Proof.Machine

/-- R8: the four words that an ECA extraction reads, in order. -/
theorem xIdx_toList (b : Build) : b.xIdx.toList = [b.xIdx[0], b.xIdx[1], b.xIdx[2], b.xIdx[3]] :=
  List.ext_getElem (by simp) fun i hi _ => by
    have hi : i < 4 := by simpa using hi
    interval_cases i <;> simp

/-- The masked word that an ECA extraction reads as its number `q` (R102, R103). -/
def maskedWord (b : Build) (a : Vector Word64 80) (q : Fin 4) : Word64 := a[b.xIdx[q]] &&& b.xMask

/-- R102: shift, then or, leaves the last word unshifted. -/
theorem eca1Gather_eq (b : Build) (a : Vector Word64 80) :
    eca1Gather b a =
      (maskedWord b a 0 <<< 3) ||| (maskedWord b a 1 <<< 2) ||| (maskedWord b a 2 <<< 1) ||| maskedWord b a 3 := by
  rw [eca1Gather, xIdx_toList]
  simp only [List.foldl_cons, List.foldl_nil, BitVec.shiftLeft_or_distrib, ← BitVec.shiftLeft_add]
  simp [maskedWord]

/-- R103: or, then shift, shifts every word once more. -/
theorem eca2Gather_eq (b : Build) (a : Vector Word64 80) :
    eca2Gather b a =
      (maskedWord b a 0 <<< 4) ||| (maskedWord b a 1 <<< 3) ||| (maskedWord b a 2 <<< 2) ||| (maskedWord b a 3 <<< 1) := by
  rw [eca2Gather, xIdx_toList]
  simp only [List.foldl_cons, List.foldl_nil, BitVec.shiftLeft_or_distrib, ← BitVec.shiftLeft_add]
  simp [maskedWord]

/-- D17: discarding the upper half of a 64-bit word. -/
theorem low_half_eq_and (x : Word64) : (x.setWidth 32).setWidth 64 = x &&& 0xFFFFFFFF#64 := by
  have hmask : 0xFFFFFFFF#64 = (BitVec.allOnes 32).setWidth 64 := by decide
  refine BitVec.eq_of_getLsbD_eq fun j hj => ?_
  rw [hmask]
  simp only [BitVec.getLsbD_setWidth, BitVec.getLsbD_and, BitVec.getLsbD_allOnes, hj, decide_true, Bool.true_and, Bool.and_comm]

/-- R105, R106: on a 64-bit engine NEXT_U64 answers the native word and NEXT_U32 its low half. -/
theorem exec_next_of_native_w64 {s : State} (hs : s.seeded = true) {v : Word64} {l : Lattice}
    (hnative : native s.build s.lattice = (.w64 v, l)) :
    exec .nextU64 s = .next { s with lattice := l, rsp := s.rsp ++ [0x100000400#64, v] } ∧
    exec .nextU32 s = .next { s with lattice := l, rsp := s.rsp ++ [0x100000300#64, v &&& 0xFFFFFFFF#64] } := by
  constructor
  · rw [exec_nextU64_of_seeded hs, nextU64Value, hnative]
  · rw [exec_nextU32_of_seeded hs, hnative, NativeWord.low32, low_half_eq_and]

/-- Settles O51. -/
theorem outputsOnEcaOneShiftThenOr : Obligations.OutputsOnEcaOneShiftThenOr := by
  intro s a m acc hs hl hm hacc
  obtain rfl : m = maskedWord s.build a := funext hm
  exact exec_next_of_native_w64 hs (by rw [hl, native, eca1Gather_eq, hacc])

/-- Settles O52. -/
theorem outputsOnEcaTwoOrThenShift : Obligations.OutputsOnEcaTwoOrThenShift := by
  intro s a m acc hs hl hm hacc
  obtain rfl : m = maskedWord s.build a := funext hm
  exact exec_next_of_native_w64 hs (by rw [hl, native, eca2Gather_eq, hacc])

end Sys2Proof.Machine
end

section
/-! PROOF. What is counted and what is constant in the outputs (R108, R109): the transitions that each output command takes, and
the bits of ECA2 and R30C that are always 0. -/

namespace Sys2Proof.Machine

/-! ### Transitions -/

/-- R101 to R104: the transitions that one native word takes. -/
theorem native_lattice (b : Build) (l : Lattice) : (native b l).2 = transition^[nativeRounds b l.variant] l := by
  cases l with
  | r30p a =>
    rw [native_r30p]
    exact Function.Semiconj.iterate_right (f := Lattice.r30p) (fun _ => rfl) 4 a
  | r30c a =>
    rw [native_r30c]
    exact Function.Semiconj.iterate_right (f := Lattice.r30c) (fun _ => rfl) b.roundC a
  | eca1 a => rfl
  | eca2 a => rfl

/-- Every native word of an engine takes as many. -/
theorem afterNatives_eq_iterate (b : Build) (k : Nat) (l : Lattice) :
    afterNatives b k l = transition^[k * nativeRounds b l.variant] l := by
  induction k generalizing l with
  | zero => rw [afterNatives, Nat.zero_mul, Function.iterate_zero_apply]
  | succ k ih => rw [afterNatives, ih, native_variant, native_lattice, ← Function.iterate_add_apply, Nat.succ_mul]

/-- R107: a fill takes the transitions of the native words that cover it. -/
theorem fillBuffer_lattice (b : Build) (nbytes : Nat) (l : Lattice) :
    (fillBuffer b nbytes l).2 = transition^[ceilDiv nbytes (l.variant.width / 8) * nativeRounds b l.variant] l := by
  rw [fillBuffer_eq, afterNatives_eq_iterate]

/-- R45, R106: a 64-bit output takes the transitions of a fill of eight bytes. -/
theorem nextU64Value_lattice (b : Build) (l : Lattice) :
    (nextU64Value b l).2 = transition^[ceilDiv 8 (l.variant.width / 8) * nativeRounds b l.variant] l := by
  rw [← fillBuffer_lattice, fillBuffer_eight]

/-- Settles O57: the counts of R109 are those of one native word, of the words of eight bytes, and of the words of `n` bytes. -/
theorem transitionsTakenByOutputCommands : Obligations.TransitionsTakenByOutputCommands := by
  intro s hs hround
  refine ⟨⟨_, exec_nextU32_of_seeded hs, ?_⟩, ⟨_, exec_nextU64_of_seeded hs, ?_⟩,
    fun n => ⟨_, exec_fillBytes_of_seeded hs n, ?_⟩⟩
  · refine (native_lattice s.build s.lattice).trans (congrArg (transition^[·] s.lattice) ?_)
    change nativeRounds s.build s.variant = _
    cases s.variant with
    | r30p => rfl
    | r30c => exact hround
    | eca1 => rfl
    | eca2 => rfl
  · refine (nextU64Value_lattice s.build s.lattice).trans (congrArg (transition^[·] s.lattice) ?_)
    change ceilDiv 8 (s.variant.width / 8) * nativeRounds s.build s.variant = _
    cases s.variant with
    | r30p => rfl
    | r30c => exact congrArg (2 * ·) hround
    | eca1 => rfl
    | eca2 => rfl
  · refine (fillBuffer_lattice s.build n.toNat s.lattice).trans (congrArg (transition^[·] s.lattice) ?_)
    change ceilDiv n.toNat (s.variant.width / 8) * nativeRounds s.build s.variant = _
    cases s.variant with
    | r30p => exact Nat.mul_comm _ _
    | r30c => exact (congrArg (ceilDiv n.toNat 4 * ·) hround).trans (Nat.mul_comm _ _)
    | eca1 => exact Nat.mul_one _
    | eca2 => exact Nat.mul_one _

/-! ### Bits that are always 0 -/

/-- D17, R44: the low half of a 64-bit word made of two. -/
theorem getLsbD_halves_low (lo hi : Word32) {p : Nat} (hp : p < 32) :
    (lo.setWidth 64 ||| (hi.setWidth 64 <<< 32)).getLsbD p = lo.getLsbD p := by
  rw [BitVec.getLsbD_or, BitVec.getLsbD_shiftLeft, BitVec.getLsbD_setWidth, decide_eq_true (by omega : p < 64),
    decide_eq_true hp]
  simp

/-- R44: the high half. -/
theorem getLsbD_halves_high (lo hi : Word32) {p : Nat} (hp : p < 32) :
    (lo.setWidth 64 ||| (hi.setWidth 64 <<< 32)).getLsbD (p + 32) = hi.getLsbD p := by
  rw [BitVec.getLsbD_or, BitVec.getLsbD_shiftLeft, BitVec.getLsbD_setWidth, BitVec.getLsbD_setWidth,
    BitVec.getLsbD_of_ge lo (p + 32) (by omega), Nat.add_sub_cancel, decide_eq_true (by omega : p + 32 < 64),
    decide_eq_true (by omega : p < 64), decide_eq_false (by omega : ¬ p + 32 < 32)]
  simp

/-- R103: the last shift of ECA2 leaves bit 0 clear, whatever the mask. -/
theorem eca2Gather_getLsbD_zero (b : Build) (a : Vector Word64 80) : (eca2Gather b a).getLsbD 0 = false := by
  simp [eca2Gather_eq]

/-- R101, R108: an R30C word of 29 rounds has nothing above its 29 bits. -/
theorem native_r30c_low32_getLsbD_of_ge {b : Build} (hround : b.roundC = 29) {l : Lattice} (hl : l.variant = .r30c) {p : Nat}
    (hp : 29 ≤ p) : (native b l).1.low32.getLsbD p = false := by
  cases l with
  | r30c a => rw [native_r30c, hround, NativeWord.low32, r30Native_29_getLsbD, decide_eq_false (by omega), Bool.false_and]
  | r30p a => cases hl
  | eca1 a => cases hl
  | eca2 a => cases hl

theorem native_eca2_getLsbD_zero (b : Build) {l : Lattice} (hl : l.variant = .eca2) :
    (native b l).1.low32.getLsbD 0 = false ∧ (nextU64Value b l).1.getLsbD 0 = false := by
  cases l with
  | eca2 a =>
    refine ⟨?_, eca2Gather_getLsbD_zero b a⟩
    rw [native, NativeWord.low32, BitVec.getLsbD_setWidth, eca2Gather_getLsbD_zero, Bool.and_false]
  | r30p a => cases hl
  | r30c a => cases hl
  | eca1 a => cases hl

/-- Settles O58: a 64-bit output of R30C has the bits of two native words. -/
theorem outputBitsThatAreAlwaysZero : Obligations.OutputBitsThatAreAlwaysZero := by
  intro s hs
  refine ⟨_, _, _, _, exec_nextU32_of_seeded hs, rfl, exec_nextU64_of_seeded hs, rfl, fun hv => ?_,
    fun hv hround p hlow hp => ?_⟩
  · obtain ⟨hnative, hvalue⟩ := native_eca2_getLsbD_zero s.build hv
    exact ⟨by rw [BitVec.getLsbD_setWidth, hnative, Bool.and_false], hvalue⟩
  · have hfirst := native_r30c_low32_getLsbD_of_ge hround hv hlow
    have hsecond := native_r30c_low32_getLsbD_of_ge hround ((native_variant s.build s.lattice).trans hv) hlow
    rw [nextU64Value_of_narrow s.build (.inr hv)]
    refine ⟨?_, ?_, ?_⟩
    · rw [BitVec.getLsbD_setWidth, hfirst, Bool.and_false]
    · rw [getLsbD_halves_low _ _ hp, hfirst]
    · rw [getLsbD_halves_high _ _ hp, hsecond]

end Sys2Proof.Machine
end

section
/-! PROOF. The constructions (R120, R121, R126, R129): what READ_STATE returned restores `S`, SEED_U64 is SEED_BYTES of its
expansion, and no construction depends on the engine it found. -/

namespace Sys2Proof.Machine

/-- The whole next state of a construction, which answers one OK header (R120). -/
theorem construct_answer_eq {s : State} {l : Lattice} {opc : Byte} {header : Beat}
    (hheader : responseHeader .ok opc 0 = header) :
    (s.construct l).answer opc [] = .next { s with lattice := l, seeded := true, rsp := s.rsp ++ [header] } := by
  rw [← hheader]
  rfl

/-- READ_STATE of a seeded engine has the words of its `S` for payload (R122). -/
theorem readState_payload {s t : State} {h : Beat} {beats : List Beat} (hs : s.seeded = true)
    (hexec : exec .readState s = .next t) (ht : t.rsp = s.rsp ++ h :: beats) : beats = s.lattice.wordBeats := by
  obtain rfl := Host.Outcome.next.inj ((exec_readState_of_seeded hs).symm.trans hexec)
  obtain ⟨-, hbeats⟩ := header_payload_unique ht (State.respond_rsp _ _ _ _ _)
  exact hbeats

/-- LOAD_STATE of the words of an `S` of the engine's variant installs that `S` (R121). -/
theorem exec_loadState_wordBeats {u : State} {l : Lattice} (hv : u.variant = l.variant) :
    exec (.loadState l.wordBeats) u = (u.construct l).answer opcLoadState [] := by
  have hlen : l.wordBeats.length = u.variant.words := by rw [Lattice.wordBeats_length, hv]
  rw [exec_loadState_of_length_eq hlen, hv, Lattice.tabulate_word]

/-- Settles O33: the payload of READ_STATE is `wordBeats`, which determines `S`. -/
theorem snapshotThenRestoreGivesTheSameLattice : Obligations.SnapshotThenRestoreGivesTheSameLattice := by
  intro s t u h beats hs hexec ht hv
  obtain rfl := readState_payload hs hexec ht
  rw [exec_loadState_wordBeats hv]
  exact construct_answer_eq (by decide)

/-- R120: a construction does not read the SEEDED that it sets. -/
theorem exec_withSeeded_of_constructs {i : Instr} {s : State} (x : Bool) (hc : constructs s.variant i = true) :
    exec i { s with seeded := x } = exec i s := by
  cases i with
  | loadState ws =>
    have hlen : ws.length = s.variant.words := by simpa [constructs] using hc
    rw [exec_loadState_of_length_eq hlen, exec_loadState_of_length_eq (s := { s with seeded := x }) hlen]
    rfl
  | seedU64 seed => rfl
  | seedBytes bs => rfl
  | readState => cases hc
  | nextU32 => cases hc
  | nextU64 => cases hc
  | fillBytes n => cases hc
  | step c => cases hc
  | reserved opc => cases hc

/-- Settles O37: a construction reads neither the SEEDED nor the `S` before it. -/
theorem constructionForgetsThePreviousState : Obligations.ConstructionForgetsThePreviousState := by
  intro i s t l x hc hv hexec
  have hc' : constructs (s.withLattice l).variant i = true := by rwa [State.withLattice_variant, hv]
  refine ⟨?_, ?_⟩
  · rw [exec_seeded i s t hexec, hc, Bool.or_true]
  · calc exec i { s.withLattice l with seeded := x }
      _ = exec i (s.withLattice l) := exec_withSeeded_of_constructs x hc'
      _ = exec i s := exec_withLattice_of_constructs hv hc
      _ = .next t := hexec

/-- Settles O35: both commands construct what the expanded seed installs, and the expansion has the bytes asked for. -/
theorem seedU64IsSeedBytesOfTheExpansion : Obligations.SeedU64IsSeedBytesOfTheExpansion := fun s seed =>
  ⟨installSeed s.variant (seedExpand s.build.seedExpand seed s.variant.seedLen), installSeed_variant _ _,
    construct_answer_eq (opc := opcSeedU64) (by decide), construct_answer_eq (opc := opcSeedBytes) (by decide),
    seedExpand_length _ _ _⟩

end Sys2Proof.Machine
end

section
/-! PROOF. Errors and waits (R140 to R146, R155, R166): an error is a response and nothing else, an engine without a whole command
stays as it is, and so every step and every command has a next state. -/

namespace Sys2Proof.Machine

/-! ### What an error leaves -/

/-- R140, R146: the whole next state of an error, which answers one header. -/
theorem raise_eq_of_header {s : State} {st : Status} {opc : Byte} {info : Word32} {header : Beat}
    (hheader : responseHeader st opc info = header) :
    s.raise st opc info = .next { s with rsp := s.rsp ++ [header] } := by
  rw [← hheader]
  rfl

/-- R67: 0x01 is the code of INVALID_LENGTH alone. -/
theorem Status.code_eq_one (st : Status) : st.code = 0x01#8 ↔ st = .invalidLength := by
  cases st <;> decide

/-- An accepted command answers the status OK (R66). -/
theorem status_of_answersOk {s t : State} {i : Instr} {h : Beat} {ps : List Beat} (hok : AnswersOk s i (.next t))
    (ht : t.rsp = s.rsp ++ h :: ps) : h.extractLsb' 0 8 = 0x00#8 := by
  obtain ⟨s', payload, hrsp, -, hanswer⟩ := hok
  obtain rfl := (State.answer_eq_next _ _ _ _).1 hanswer.symm
  obtain ⟨rfl, -⟩ := header_payload_unique ht (by rw [State.respond_rsp, hrsp])
  exact responseHeader_status _ _ _

/-- A command raises an error or answers OK, and a wrong length is LOAD_STATE's alone to raise (R67, R141). -/
theorem exec_raises_or_answersOk (i : Instr) (s : State) :
    (∃ (st : Status) (info : Word32), exec i s = s.raise st i.opcode info ∧
      (st = .invalidLength → ∃ ws, i = .loadState ws ∧ ws.length ≠ s.variant.words)) ∨
    AnswersOk s i (exec i s) := by
  obtain ⟨opc, -, hr⟩ | ⟨ws, hi, hlen, hr⟩ | ⟨-, -, hr⟩ | ⟨-, hok⟩ := exec_status_cases i s
  · exact .inl ⟨_, _, hr, fun hno => nomatch hno⟩
  · exact .inl ⟨_, _, hr, fun _ => ⟨ws, hi, hlen⟩⟩
  · exact .inl ⟨_, _, hr, fun hno => nomatch hno⟩
  · exact .inr hok

/-- A command whose status is not OK raised that status, and did nothing else (R146). -/
theorem exec_raises_of_status_ne_ok {i : Instr} {s t : State} {h : Beat} {ps : List Beat} (hexec : exec i s = .next t)
    (ht : t.rsp = s.rsp ++ h :: ps) (herr : h.extractLsb' 0 8 ≠ 0x00#8) :
    ∃ (st : Status) (info : Word32), t = s.respond st i.opcode info [] ∧ h.extractLsb' 0 8 = st.code ∧
      (st = .invalidLength → ∃ ws, i = .loadState ws ∧ ws.length ≠ s.variant.words) := by
  obtain ⟨st, info, hr, hload⟩ | hok := exec_raises_or_answersOk i s
  · obtain rfl := (s.raise_eq_next _ _ _ t).1 (hr.symm.trans hexec)
    obtain ⟨rfl, -⟩ := header_payload_unique ht (s.respond_rsp _ _ _ _)
    exact ⟨st, info, rfl, responseHeader_status _ _ _, hload⟩
  · exact absurd (status_of_answersOk (hexec ▸ hok) ht) herr

/-- Settles O25: a status that is not OK was raised, and raising it writes the response stream alone. -/
theorem errorChangesNoState : Obligations.ErrorChangesNoState := by
  intro i s t h payload hexec ht herr
  obtain ⟨st, info, rfl, -, -⟩ := exec_raises_of_status_ne_ok hexec ht herr
  rfl

/-- Settles O30. -/
theorem commandsBeforeSeedingAreRefused : Obligations.CommandsBeforeSeedingAreRefused := by
  intro s hs
  have hrefused {i : Instr} {header : Beat} (hi : needsSeed i = true)
      (hheader : responseHeader .notSeeded i.opcode 0 = header) :
      exec i s = .next { s with rsp := s.rsp ++ [header] } :=
    (exec_of_unseeded hi hs).trans (raise_eq_of_header hheader)
  exact ⟨hrefused rfl (by decide), hrefused rfl (by decide), hrefused rfl (by decide),
    fun n => hrefused rfl (by rw [Instr.opcode]; decide), fun c => hrefused rfl (by rw [Instr.opcode]; decide)⟩

/-! ### An error in the request stream -/

/-- An idle engine whose next command raises an error takes the command's beats, answers one header, and changes nothing else
(R62, R146). -/
theorem step_of_idle_raise {s : State} {i : Instr} {tail : List Beat} {st : Status} {opc : Byte} {info : Word32} {header : Beat}
    (hrst : s.rst = false) (hrsp : s.rsp = []) (hrx : s.rx = []) (hd : decode s.variant s.req = .ok (i, tail))
    (hexec : exec i (s.withReq tail) = (s.withReq tail).raise st opc info) (hheader : responseHeader st opc info = header) :
    step s = .next { s with req := tail, rsp := [header] } := by
  have hidle : { s with rx := [], req := tail } = s.withReq tail := by rw [State.withReq, hrx]
  rw [step_of_command hrst hrsp (by rwa [hrx, List.nil_append]), hidle, hexec, raise_eq_of_header hheader]
  simp only [State.withReq, hrsp, List.nil_append]

/-- R63, R76: the beats of a LOAD_STATE whose number of words fits ARG. -/
theorem encode_loadState {ws : List Beat} (hlen : ws.length < 2 ^ 32) :
    encode (.loadState ws) = ((BitVec.ofNat 64 ws.length <<< 32) ||| 0x01#64) :: ws := by
  have harg : (BitVec.ofNat 32 ws.length).setWidth 64 = BitVec.ofNat 64 ws.length :=
    BitVec.setWidth_ofNat_of_le_of_lt (by decide) hlen
  rw [encode, makeHeader, Instr.arg, harg]
  rfl

/-- Settles O28: the header and the words offered are the encoding of a LOAD_STATE, which is refused; and of the errors a command
can raise, this one is its own. -/
theorem wrongLengthLoadIsConsumedAndRejected : Obligations.WrongLengthLoadIsConsumedAndRejected := by
  refine ⟨fun s ws tail hrst hrsp hrx hfits hlen hreq => ?_, fun i s t h payload hexec ht hstatus => ?_⟩
  · have hd : decode s.variant s.req = .ok (.loadState ws, tail) := by
      rw [hreq, ← encode_loadState hfits]
      exact decode_encode_append tail (decide_eq_true hfits)
    exact step_of_idle_raise hrst hrsp hrx hd (exec_loadState_of_length_ne hlen) (responseHeader_invalidLength s.variant)
  · have herr : h.extractLsb' 0 8 ≠ 0x00#8 := by rw [hstatus]; decide
    obtain ⟨st, info, -, hcode, hload⟩ := exec_raises_of_status_ne_ok hexec ht herr
    exact hload (st.code_eq_one.1 (hcode.symm.trans hstatus))

/-- The ILLEGAL_CMD header of each opcode (R66, R142). -/
theorem responseHeader_illegalCmd (opc : Byte) :
    responseHeader .illegalCmd opc 0 = (opc.setWidth 64 <<< 8) ||| 0x02#64 := by
  simp [responseHeader, Status.code]

/-- R71, R73: a reserved opcode asks for no payload. -/
theorem payloadBeats_reserved {v : Variant} {h : Beat} (ho : reservedOpc (headerOpc h) = true) : payloadBeats v h = 0 := by
  simp only [payloadBeats, ne_of_reservedOpc ho (o' := opcLoadState) rfl, ne_of_reservedOpc ho (o' := opcSeedU64) rfl,
    ne_of_reservedOpc ho (o' := opcSeedBytes) rfl, if_false]

/-- R142: a header with a reserved opcode is a whole command, and the next beat is left to be a header. -/
theorem decode_reserved {v : Variant} {h : Beat} (tail : List Beat) (ho : reservedOpc (headerOpc h) = true) :
    decode v (h :: tail) = .ok (.reserved (headerOpc h), tail) :=
  (decode_eq_ok v _ _ _).2 ⟨h, [], rfl, (payloadBeats_reserved ho).symm, (assemble_reserved ho).symm⟩

/-- Settles O29. -/
theorem reservedOpcodeIsAnsweredIllegal : Obligations.ReservedOpcodeIsAnsweredIllegal := by
  refine ⟨fun s opc => raise_eq_of_header (responseHeader_illegalCmd opc), fun s h tail hrst hrsp hrx hreq ho => ?_⟩
  have hd : decode s.variant s.req = .ok (.reserved (headerOpc h), tail) := by
    rw [hreq, decode_reserved tail (reservedOpc_eq_true.2 ho)]
  exact step_of_idle_raise hrst hrsp hrx hd rfl (responseHeader_illegalCmd _)

/-! ### Waiting -/

/-- A waiting engine that is offered nothing more stays as it is. -/
theorem State.awaitBeats_awaitBeats (s : State) : s.awaitBeats.awaitBeats = s.awaitBeats := by
  simp only [State.awaitBeats, List.append_nil]

/-- Settles O10: what the engine took is the stream it decodes again. -/
theorem incompleteCommandWaits : Obligations.IncompleteCommandWaits := by
  intro s e hrst hrsp hd
  have hagain : decode s.awaitBeats.variant (s.awaitBeats.rx ++ s.awaitBeats.req) = .error e := by
    rwa [s.awaitBeats_variant, s.awaitBeats_rx, s.awaitBeats_req, List.append_nil]
  refine ⟨step_of_partial hrst hrsp hd, ?_⟩
  calc step s.awaitBeats
    _ = .next s.awaitBeats.awaitBeats := step_of_partial (s := s.awaitBeats) hrst hrsp hagain
    _ = .next s.awaitBeats := by rw [s.awaitBeats_awaitBeats]

/-- Settles O16: out of reset, a beat of a response and a wait leave `S` and SEEDED, and what is left of a step is a command. -/
theorem onlyResetOrCommandChangesTheEngine : Obligations.OnlyResetOrCommandChangesTheEngine := by
  intro s t h hrst hchange
  obtain ⟨hreset, -⟩ | ⟨-, -, rfl⟩ | ⟨-, hrsp, hcommand⟩ | ⟨-, -, -, rfl⟩ := step_cases s t h
  · exact Bool.noConfusion (hrst.symm.trans hreset)
  · simp only [State.transferResponse_lattice, State.transferResponse_seeded, ne_eq, not_true_eq_false, or_self] at hchange
  · exact ⟨hrsp, hcommand⟩
  · simp only [State.awaitBeats_lattice, State.awaitBeats_seeded, ne_eq, not_true_eq_false, or_self] at hchange

/-! ### No step and no command stops -/

theorem exec_has_next (i : Instr) (s : State) : ∃ t, exec i s = .next t := by
  obtain ⟨l, x, st, info, payload, -, hexec⟩ := exec_cases i s
  exact ⟨_, hexec⟩

/-- Settles O9: a next state in each of the four branches of a step. -/
theorem everyStepAndCommandHasANextState : Obligations.EveryStepAndCommandHasANextState := by
  refine ⟨fun s => ?_, exec_has_next⟩
  by_cases hrst : s.rst = true
  · exact ⟨_, step_of_rst hrst⟩
  rw [Bool.not_eq_true] at hrst
  by_cases hrsp : s.rsp = []
  · cases hd : decode s.variant (s.rx ++ s.req) with
    | ok command =>
      rw [step_of_command hrst hrsp hd]
      exact exec_has_next _ _
    | error e => exact ⟨_, step_of_partial hrst hrsp hd⟩
  · exact ⟨_, step_of_pending hrst hrsp⟩

end Sys2Proof.Machine
end

section
/-! PROOF. Reset (R160, R161): no beat moves under it, and after it the sequencer is idle. -/

namespace Sys2Proof.Machine

/-- R160: in reset no request beat is taken. -/
theorem State.reqReady_of_rst {s : State} (hrst : s.rst = true) : s.reqReady = false := by
  simp [State.reqReady, hrst]

/-- R160: in reset no response beat is offered. -/
theorem State.rspValid_of_rst {s : State} (hrst : s.rst = true) : s.rspValid = false := by
  simp [State.rspValid, hrst]

/-- R161: the command that is performed once `rst` is 0 again is decoded from the offered beats alone: what `s` had taken of a
command is not part of it. -/
theorem step_of_command_after_reset {s : State} {i : Instr} {rest : List Beat} (hd : decode s.variant s.req = .ok (i, rest)) :
    step { s.hardwareReset with rst := false } = exec i { s.hardwareReset with rst := false, req := rest } := by
  have hreleased : decode s.hardwareReset.variant ([] ++ s.req) = .ok (i, rest) := by
    rwa [s.hardwareReset_variant, List.nil_append]
  exact step_of_command (s := { s.hardwareReset with rst := false }) rfl rfl hreleased

/-- Settles O14: a step in reset is `hardwareReset`. -/
theorem resetAbandonsTheCommandAndUnseeds : Obligations.ResetAbandonsTheCommandAndUnseeds := by
  intro s hrst
  exact ⟨State.reqReady_of_rst hrst, State.rspValid_of_rst hrst, s.hardwareReset, step_of_rst hrst, s.hardwareReset_seeded,
    s.hardwareReset_rx, s.hardwareReset_rsp, s.hardwareReset_req, s.hardwareReset_taken, s.hardwareReset_variant,
    s.hardwareReset_build, s.hardwareReset_rst.trans hrst, s.hardwareReset_rspReady, fun _ _ => step_of_command_after_reset⟩

end Sys2Proof.Machine
end
